-- ==== Sys2Proof/Word.lean ====
section
/-! DEFINITION. The word types of the machine (00_scope.md R4, 30_encoding.md R61): every value is an unsigned
bit vector of a stated width (00_scope.md section 5). -/

namespace Sys2Proof

/-- A byte: a general register, a timer, a memory cell, the field `kk`. -/
abbrev Byte := BitVec 8

/-- A 16-bit word: an instruction word, `I`, `PC`, a stack entry. -/
abbrev Word := BitVec 16

/-- A 4-bit field: a register index (`x`, `y`) or the small immediate `n`. -/
abbrev Nibble := BitVec 4

/-- The 12-bit field `addr`. -/
abbrev Addr := BitVec 12

end Sys2Proof
end

