-- ==== Sys2Proof/Syntax.lean ====
section
/-! DEFINITION. The operations of the machine: one constructor per row of spec/opcode_table.json, under the spec's own
operation names (30_encoding.md section 3), in the order of the table. Each carries exactly the fields its row names
(30_encoding.md R73). -/

namespace Sys2Proof

/-- An operation: the result of classifying an instruction word (30_encoding.md R64). -/
inductive Instr where
  /-- `00E0` CLS (R161). -/
  | clearScreen
  /-- `00EE` RET (R101). -/
  | returnFromSubroutine
  /-- `1nnn` JP addr (R102). -/
  | jump (addr : Addr)
  /-- `2nnn` CALL addr (R103). -/
  | callSubroutine (addr : Addr)
  /-- `3xkk` SE Vx, byte (R105). -/
  | skipIfEqual (x : Nibble) (kk : Byte)
  /-- `4xkk` SNE Vx, byte (R106). -/
  | skipIfNotEqual (x : Nibble) (kk : Byte)
  /-- `5xy0` SE Vx, Vy (R107). -/
  | skipIfRegistersEqual (x y : Nibble)
  /-- `6xkk` LD Vx, byte (R122). -/
  | setRegister (x : Nibble) (kk : Byte)
  /-- `7xkk` ADD Vx, byte (R123). -/
  | addRegister (x : Nibble) (kk : Byte)
  /-- `8xy0` LD Vx, Vy (R124). -/
  | copyRegister (x y : Nibble)
  /-- `8xy1` OR Vx, Vy (R125). -/
  | orRegister (x y : Nibble)
  /-- `8xy2` AND Vx, Vy (R126). -/
  | andRegister (x y : Nibble)
  /-- `8xy3` XOR Vx, Vy (R127). -/
  | xorRegister (x y : Nibble)
  /-- `8xy4` ADD Vx, Vy (R128). -/
  | addRegisterWithCarry (x y : Nibble)
  /-- `8xy5` SUB Vx, Vy (R129). -/
  | subRegister (x y : Nibble)
  /-- `8xy6` SHR Vx, Vy (R130); `y` is decoded and ignored. -/
  | shiftRight (x y : Nibble)
  /-- `8xy7` SUBN Vx, Vy (R131). -/
  | subRegisterReverse (x y : Nibble)
  /-- `8xyE` SHL Vx, Vy (R132); `y` is decoded and ignored. -/
  | shiftLeft (x y : Nibble)
  /-- `9xy0` SNE Vx, Vy (R108). -/
  | skipIfRegistersNotEqual (x y : Nibble)
  /-- `Annn` LD I, addr (R141). -/
  | setIndexRegister (addr : Addr)
  /-- `Bnnn` JP V0, addr (R104). -/
  | jumpWithOffset (addr : Addr)
  /-- `Cxkk` RND Vx, byte (R133). -/
  | randomAnd (x : Nibble) (kk : Byte)
  /-- `Dxyn` DRW Vx, Vy, nibble (R162). -/
  | draw (x y n : Nibble)
  /-- `Ex9E` SKP Vx (R174). -/
  | skipIfKeyPressed (x : Nibble)
  /-- `ExA1` SKNP Vx (R175). -/
  | skipIfKeyNotPressed (x : Nibble)
  /-- `Fx07` LD Vx, DT (R170). -/
  | loadDelayTimer (x : Nibble)
  /-- `Fx0A` LD Vx, K (R173). -/
  | waitForKey (x : Nibble)
  /-- `Fx15` LD DT, Vx (R171). -/
  | setDelayTimer (x : Nibble)
  /-- `Fx18` LD ST, Vx (R172). -/
  | setSoundTimer (x : Nibble)
  /-- `Fx1E` ADD I, Vx (R142). -/
  | addToIndex (x : Nibble)
  /-- `Fx29` LD F, Vx (R143). -/
  | setIndexToGlyph (x : Nibble)
  /-- `Fx33` LD B, Vx (R144). -/
  | storeBcd (x : Nibble)
  /-- `Fx55` LD [I], Vx (R145). -/
  | storeRegisters (x : Nibble)
  /-- `Fx65` LD Vx, [I] (R146). -/
  | loadRegisters (x : Nibble)
  /-- Any other word: the unknown outcome, which carries the word it reports (R72, R90). -/
  | unknown (w : Word)
  deriving DecidableEq, Repr

end Sys2Proof
end

