-- ==== Sys2Proof/WellFormed.lean ====
section
/-! DEFINITION. Well-formed operations. Every value of every field is legal (30_encoding.md R63), so the only check is
that the word an `unknown` carries belongs to the unknown space of 30_encoding.md R72. That space is written here from
R72's own list, not from the decoder. -/

namespace Sys2Proof

/-- R72, first item: `0x0nnn` other than `0x00E0` and `0x00EE`. -/
def inUnknownFamily0 (w : Word) : Bool :=
  w.toNat < 0x1000 && w != 0x00E0#16 && w != 0x00EE#16

/-- R72, second item: `5xyN` or `9xyN` with `N` not 0. -/
def inUnknownFamily59 (w : Word) : Bool :=
  (w.toNat / 0x1000 == 5 || w.toNat / 0x1000 == 9) && w.toNat % 0x10 != 0

/-- R72, third item: `8xyN` with `N` in 8, 9, A, B, C, D, F. -/
def inUnknownFamily8 (w : Word) : Bool :=
  w.toNat / 0x1000 == 8 && [0x8, 0x9, 0xA, 0xB, 0xC, 0xD, 0xF].contains (w.toNat % 0x10)

/-- R72, fourth item: `Exkk` with `kk` not `9E` or `A1`. -/
def inUnknownFamilyE (w : Word) : Bool :=
  w.toNat / 0x1000 == 0xE && !([0x9E, 0xA1].contains (w.toNat % 0x100))

/-- R72, fifth item: `Fxkk` with `kk` not one of the nine values of R71. -/
def inUnknownFamilyF (w : Word) : Bool :=
  w.toNat / 0x1000 == 0xF &&
    !([0x07, 0x0A, 0x15, 0x18, 0x1E, 0x29, 0x33, 0x55, 0x65].contains (w.toNat % 0x100))

/-- The unknown space (30_encoding.md R72). -/
def isUnknownWord (w : Word) : Bool :=
  inUnknownFamily0 w || inUnknownFamily59 w || inUnknownFamily8 w || inUnknownFamilyE w || inUnknownFamilyF w

/-- A well-formed operation: an `unknown` carries a word of the unknown space; every other operation is well-formed at
every value of its fields (30_encoding.md R63, R72). -/
def wellFormed : Instr → Bool
  | .unknown w => isUnknownWord w
  | .clearScreen | .returnFromSubroutine => true
  | .jump _ | .callSubroutine _ | .setIndexRegister _ | .jumpWithOffset _ => true
  | .skipIfEqual _ _ | .skipIfNotEqual _ _ | .setRegister _ _ | .addRegister _ _ | .randomAnd _ _ => true
  | .skipIfRegistersEqual _ _ | .skipIfRegistersNotEqual _ _ | .copyRegister _ _ | .orRegister _ _ => true
  | .andRegister _ _ | .xorRegister _ _ | .addRegisterWithCarry _ _ | .subRegister _ _ => true
  | .shiftRight _ _ | .subRegisterReverse _ _ | .shiftLeft _ _ => true
  | .draw _ _ _ => true
  | .skipIfKeyPressed _ | .skipIfKeyNotPressed _ | .loadDelayTimer _ | .waitForKey _ | .setDelayTimer _ => true
  | .setSoundTimer _ | .addToIndex _ | .setIndexToGlyph _ | .storeBcd _ | .storeRegisters _ | .loadRegisters _ => true

end Sys2Proof
end

