-- ==== Sys2Proof/Decode.lean ====
section
/-! DEFINITION. The decoder: a total function of the word alone, in two levels (30_encoding.md R64 to R73), and after it
the encoder, from the format table (30_encoding.md R62 and section 3). -/

namespace Sys2Proof

/-- `op = w[15:12]`, the family nibble (R61). -/
def fieldOp (w : Word) : Nibble := w.extractLsb' 12 4

/-- `x = w[11:8]` (R61). -/
def fieldX (w : Word) : Nibble := w.extractLsb' 8 4

/-- `y = w[7:4]` (R61). -/
def fieldY (w : Word) : Nibble := w.extractLsb' 4 4

/-- `n = w[3:0]`, also the selector `sub4` (R61). -/
def fieldN (w : Word) : Nibble := w.extractLsb' 0 4

/-- `kk = w[7:0]`, also the selector `sub8` (R61). -/
def fieldKK (w : Word) : Byte := w.extractLsb' 0 8

/-- `addr = w[11:0]` (R61). -/
def fieldAddr (w : Word) : Addr := w.extractLsb' 0 12

/-- Family 0x0, selected by all of `w[11:0]` (R65). -/
def decodeFamily0 (w : Word) : Instr :=
  match fieldAddr w with
  | 0x0E0#12 => .clearScreen
  | 0x0EE#12 => .returnFromSubroutine
  | _ => .unknown w

/-- Family 0x5, selected by `sub4` (R67). -/
def decodeFamily5 (w : Word) : Instr :=
  match fieldN w with
  | 0x0#4 => .skipIfRegistersEqual (fieldX w) (fieldY w)
  | _ => .unknown w

/-- Family 0x8, selected by `sub4` (R68). -/
def decodeFamily8 (w : Word) : Instr :=
  match fieldN w with
  | 0x0#4 => .copyRegister (fieldX w) (fieldY w)
  | 0x1#4 => .orRegister (fieldX w) (fieldY w)
  | 0x2#4 => .andRegister (fieldX w) (fieldY w)
  | 0x3#4 => .xorRegister (fieldX w) (fieldY w)
  | 0x4#4 => .addRegisterWithCarry (fieldX w) (fieldY w)
  | 0x5#4 => .subRegister (fieldX w) (fieldY w)
  | 0x6#4 => .shiftRight (fieldX w) (fieldY w)
  | 0x7#4 => .subRegisterReverse (fieldX w) (fieldY w)
  | 0xE#4 => .shiftLeft (fieldX w) (fieldY w)
  | _ => .unknown w

/-- Family 0x9, selected by `sub4` (R67). -/
def decodeFamily9 (w : Word) : Instr :=
  match fieldN w with
  | 0x0#4 => .skipIfRegistersNotEqual (fieldX w) (fieldY w)
  | _ => .unknown w

/-- Family 0xE, selected by `sub8` (R70). -/
def decodeFamilyE (w : Word) : Instr :=
  match fieldKK w with
  | 0x9E#8 => .skipIfKeyPressed (fieldX w)
  | 0xA1#8 => .skipIfKeyNotPressed (fieldX w)
  | _ => .unknown w

/-- Family 0xF, selected by `sub8` (R71). -/
def decodeFamilyF (w : Word) : Instr :=
  match fieldKK w with
  | 0x07#8 => .loadDelayTimer (fieldX w)
  | 0x0A#8 => .waitForKey (fieldX w)
  | 0x15#8 => .setDelayTimer (fieldX w)
  | 0x18#8 => .setSoundTimer (fieldX w)
  | 0x1E#8 => .addToIndex (fieldX w)
  | 0x29#8 => .setIndexToGlyph (fieldX w)
  | 0x33#8 => .storeBcd (fieldX w)
  | 0x55#8 => .storeRegisters (fieldX w)
  | 0x65#8 => .loadRegisters (fieldX w)
  | _ => .unknown w

/-- The decoder (R64): level one selects the family by `op` (R65 to R71); the last arm is `op = 0xF`. -/
def decodeWord (w : Word) : Instr :=
  match fieldOp w with
  | 0x0#4 => decodeFamily0 w
  | 0x1#4 => .jump (fieldAddr w)
  | 0x2#4 => .callSubroutine (fieldAddr w)
  | 0x3#4 => .skipIfEqual (fieldX w) (fieldKK w)
  | 0x4#4 => .skipIfNotEqual (fieldX w) (fieldKK w)
  | 0x5#4 => decodeFamily5 w
  | 0x6#4 => .setRegister (fieldX w) (fieldKK w)
  | 0x7#4 => .addRegister (fieldX w) (fieldKK w)
  | 0x8#4 => decodeFamily8 w
  | 0x9#4 => decodeFamily9 w
  | 0xA#4 => .setIndexRegister (fieldAddr w)
  | 0xB#4 => .jumpWithOffset (fieldAddr w)
  | 0xC#4 => .randomAnd (fieldX w) (fieldKK w)
  | 0xD#4 => .draw (fieldX w) (fieldY w) (fieldN w)
  | 0xE#4 => decodeFamilyE w
  | _ => decodeFamilyF w

/-- Why a byte sequence holds no instruction word. Every 16-bit word has an outcome (R64), so the only reason is that
fewer than two bytes are left. -/
inductive DecodeError where
  /-- Fewer than two bytes. -/
  | truncated
  deriving DecidableEq, Repr

/-- The word two memory bytes make: the byte at the lower address is the high half (20_memory.md R41). -/
def wordOfBytes (hi lo : Byte) : Word := hi ++ lo

/-- The two memory bytes of a word, the one at the lower address first (20_memory.md R41). -/
def bytesOfWord (w : Word) : List Byte := [w.extractLsb' 8 8, w.extractLsb' 0 8]

/-- Decoding of any byte sequence: the first instruction and the rest, or the named reason there is none. -/
def decode : List Byte → Except DecodeError (Instr × List Byte)
  | hi :: lo :: rest => .ok (decodeWord (wordOfBytes hi lo), rest)
  | [_] => .error .truncated
  | [] => .error .truncated

/-- What the decoder reads from an instruction whose bits, numbered as spec/opcode_table.json numbers them, are `w`: its
one word is laid out high byte first and given to `decode`. -/
def decodeTableWord (nbits w : Nat) : Option Instr :=
  match decode (bytesOfWord (BitVec.ofNat 16 (w % 2 ^ nbits))) with
  | .ok (i, _) => some i
  | .error _ => none

/-! The encoder. The formats of R62, each laid out as the table lists its fields, high bits first. -/

/-- Format `ADDR`: `{op, addr}`. -/
def formatADDR (op : Nibble) (addr : Addr) : Word := op ++ addr

/-- Format `XKK`: `{op, x, kk}`. -/
def formatXKK (op x : Nibble) (kk : Byte) : Word := op ++ (x ++ kk)

/-- Formats `XY` and `XYN`: `{op, x, y, n}`, `n` being `sub4` in format `XY`. -/
def formatXYN (op x y n : Nibble) : Word := op ++ (x ++ (y ++ n))

/-- The encoder: the word of an operation (section 3 of 30_encoding.md). Format `X` is `XKK` with the fixed `sub8`. -/
def encode : Instr → Word
  | .clearScreen => 0x00E0#16
  | .returnFromSubroutine => 0x00EE#16
  | .jump addr => formatADDR 0x1#4 addr
  | .callSubroutine addr => formatADDR 0x2#4 addr
  | .skipIfEqual x kk => formatXKK 0x3#4 x kk
  | .skipIfNotEqual x kk => formatXKK 0x4#4 x kk
  | .skipIfRegistersEqual x y => formatXYN 0x5#4 x y 0x0#4
  | .setRegister x kk => formatXKK 0x6#4 x kk
  | .addRegister x kk => formatXKK 0x7#4 x kk
  | .copyRegister x y => formatXYN 0x8#4 x y 0x0#4
  | .orRegister x y => formatXYN 0x8#4 x y 0x1#4
  | .andRegister x y => formatXYN 0x8#4 x y 0x2#4
  | .xorRegister x y => formatXYN 0x8#4 x y 0x3#4
  | .addRegisterWithCarry x y => formatXYN 0x8#4 x y 0x4#4
  | .subRegister x y => formatXYN 0x8#4 x y 0x5#4
  | .shiftRight x y => formatXYN 0x8#4 x y 0x6#4
  | .subRegisterReverse x y => formatXYN 0x8#4 x y 0x7#4
  | .shiftLeft x y => formatXYN 0x8#4 x y 0xE#4
  | .skipIfRegistersNotEqual x y => formatXYN 0x9#4 x y 0x0#4
  | .setIndexRegister addr => formatADDR 0xA#4 addr
  | .jumpWithOffset addr => formatADDR 0xB#4 addr
  | .randomAnd x kk => formatXKK 0xC#4 x kk
  | .draw x y n => formatXYN 0xD#4 x y n
  | .skipIfKeyPressed x => formatXKK 0xE#4 x 0x9E#8
  | .skipIfKeyNotPressed x => formatXKK 0xE#4 x 0xA1#8
  | .loadDelayTimer x => formatXKK 0xF#4 x 0x07#8
  | .waitForKey x => formatXKK 0xF#4 x 0x0A#8
  | .setDelayTimer x => formatXKK 0xF#4 x 0x15#8
  | .setSoundTimer x => formatXKK 0xF#4 x 0x18#8
  | .addToIndex x => formatXKK 0xF#4 x 0x1E#8
  | .setIndexToGlyph x => formatXKK 0xF#4 x 0x29#8
  | .storeBcd x => formatXKK 0xF#4 x 0x33#8
  | .storeRegisters x => formatXKK 0xF#4 x 0x55#8
  | .loadRegisters x => formatXKK 0xF#4 x 0x65#8
  | .unknown w => w

/-! The same words written as the instruction rules write them, for the statements that quote those rules. -/

/-- `w = base | addr`, as the rules of format `ADDR` write it. -/
def orADDR (base : Word) (addr : Addr) : Word := base ||| addr.setWidth 16

/-- `w = base | x << 8 | kk`, as the rules of format `XKK` write it. -/
def orXKK (base : Word) (x : Nibble) (kk : Byte) : Word := base ||| (x.setWidth 16 <<< 8) ||| kk.setWidth 16

/-- `w = base | x << 8 | y << 4`, as the rules of format `XY` write it. -/
def orXY (base : Word) (x y : Nibble) : Word := base ||| (x.setWidth 16 <<< 8) ||| (y.setWidth 16 <<< 4)

/-- `w = base | x << 8 | y << 4 | n`, as R162 writes it. -/
def orXYN (base : Word) (x y n : Nibble) : Word :=
  base ||| (x.setWidth 16 <<< 8) ||| (y.setWidth 16 <<< 4) ||| n.setWidth 16

/-- `w = base | x << 8`, as the rules of format `X` write it. -/
def orX (base : Word) (x : Nibble) : Word := base ||| (x.setWidth 16 <<< 8)

end Sys2Proof
end

