-- ==== Sys2Proof/Config.lean ====
section
/-! DEFINITION. What is fixed for the machine (00_scope.md R4), the three switches of 00_scope.md R5 at their defaults,
and the one free value. -/

namespace Sys2Proof.Config

/-- `MEM_SIZE`: bytes of memory (R4, R17). -/
def memSize : Nat := 4096

/-- `LOAD_OFFSET`: the reset value of `PC` and the address programs are loaded from (R4, R14, R49). -/
def loadOffset : Word := 0x0200#16

/-- `STACK_DEPTH`: return addresses the stack holds (R4, R16). -/
def stackDepth : Nat := 16

/-- `FB_W`: framebuffer columns (R4, R18). -/
def fbW : Nat := 64

/-- `FB_H`: framebuffer rows (R4, R18). -/
def fbH : Nat := 32

/-- `FONT_BASE`: where `SetIndexToGlyph` expects the glyph of digit 0 (R4, R49; D23). -/
def fontBase : Word := 0x0050#16

/-- `FONT_STRIDE`: bytes per glyph (R4; D23). -/
def fontStride : Nat := 5

/-- `Q_LOGIC_RESETS_VF`: whether `OR`, `AND`, `XOR` clear `VF` (R5, R125; D18). DESIGN CHOICE (log 6): fixed at the
default of R5. -/
def logicResetsVF : Bool := false

/-- `Q_SHIFT_SOURCE_IS_VY`: whether the shifts read `V[y]` (R5, R130; D19). DESIGN CHOICE (log 6): fixed at the default
of R5. -/
def shiftSourceIsVY : Bool := false

/-- `Q_LDST_INCREMENTS_I`: whether the register-range transfers advance `I` (R5, R145; D22). DESIGN CHOICE (log 6):
fixed at the default of R5. -/
def ldStIncrementsI : Bool := false

/-- The random byte of the `n`-th draw (R26, R133, U7): a FREE VALUE, "a free draw per execution". It has no body, so
nothing can be proved of it but that it is a byte. DESIGN CHOICE of form (log 2). -/
opaque randByte : Nat → Byte

end Sys2Proof.Config
end

