-- ==== Sys2Proof/Machine/State.lean ====
section
/-! DEFINITION. The machine state (10_state.md): every piece the spec gives the machine, the outputs that last one clock
period, and the inputs a deterministic step must find. Plain data throughout. -/

namespace Sys2Proof.Machine

/-- Memory (10_state.md R17): the bytes that are not 0x00, by rising address. An unlisted address reads 0x00, the reset
value of every byte (R30). -/
abbrev Memory := List Host.Cell

/-- The canonical form of memory: addresses strictly rise, no entry holds what an unlisted address reads as, and every
address is one of the 4096 of R17. -/
abbrev Memory.wf (m : Memory) : Prop :=
  m.Pairwise (fun c d => c.1 < d.1) ∧ ∀ c ∈ m, c.2 ≠ 0#8 ∧ c.1 < 4096

/-- The framebuffer (10_state.md R18): 32 rows of 64 pixels, `true` is on. -/
abbrev Frame := Vector (Vector Bool 64) 32

/-- Why `running` is 0 (10_state.md R21, 60_exceptions.md R191). -/
inductive HaltReason where
  /-- Code 0, `NONE`: not a halt cause. -/
  | none
  /-- Code 1, `PC_OUT_OF_BOUNDS`, fatal: the fetch of any step (R84). -/
  | pcOutOfBounds
  /-- Code 2, `STACK_OVERFLOW`, fatal: `CallSubroutine` (R103). -/
  | stackOverflow
  /-- Code 3, `STACK_UNDERFLOW`, fatal: `ReturnFromSubroutine` (R101). -/
  | stackUnderflow
  /-- Code 4, `MEM_OUT_OF_BOUNDS`, fatal: `Draw`, `StoreBcd`, `StoreRegisters`, `LoadRegisters` (R46). -/
  | memOutOfBounds
  /-- Code 5, `STOP`, not fatal: the host's `Stop` event (R196). -/
  | stop
  deriving DecidableEq, Repr

/-- The unknown-opcode report `Unknown(pc, w)` (40_execution_cycle.md R90): the outputs `unk_pc`, `unk_word`. -/
structure Report where
  pc : Word
  word : Word
  deriving DecidableEq, Repr

/-- What the host drives at one clock edge (10_state.md R23 to R25, R27). `rand_byte` is not here: it is the free value
`Config.randByte` (log 2). -/
structure Inputs where
  /-- `rst`. -/
  rst : Bool := false
  /-- `ld_we`. -/
  ldWe : Bool := false
  /-- `ld_addr`. -/
  ldAddr : Addr := 0#12
  /-- `ld_data`. -/
  ldData : Byte := 0#8
  /-- `start`. -/
  start : Bool := false
  /-- `stop_req`. -/
  stopReq : Bool := false
  /-- `step`. -/
  step : Bool := false
  /-- `timer_tick`. -/
  timerTick : Bool := false
  /-- `keys`: bit `k` is 1 when key `k` is pressed. -/
  keys : BitVec 16 := 0#16
  deriving DecidableEq, Repr

/-- The machine state. -/
structure State where
  /-- `V[0]` to `V[15]` (R10); `V[15]` is the flag `VF` (R12). -/
  v : Vector Byte 16
  /-- `I` (R13). -/
  i : Word
  /-- `PC` (R14). -/
  pc : Word
  /-- `STACK[0]` to `STACK[15]` (R16). -/
  stack : Vector Word 16
  /-- `SP`, the number of valid stack entries, 0 to 16 (R16). -/
  sp : Fin 17
  /-- `MEM` (R17). -/
  mem : Memory
  /-- `FB` (R18). -/
  fb : Frame
  /-- `DT` (R19). -/
  dt : Byte
  /-- `ST` (R19). -/
  st : Byte
  /-- `running` (R20). -/
  running : Bool
  /-- `halt_reason` (R21). -/
  haltReason : HaltReason
  /-- Output `fb_changed` (R28): the latest clock edge executed `ClearScreen` or `Draw`. -/
  fbChanged : Bool
  /-- Outputs `unk_valid`, `unk_pc`, `unk_word` (R29): the report of the latest clock edge, if it made one. -/
  report : Option Report
  /-- Input `keys` (R24): the vector as last driven. DESIGN CHOICE of place (log 3). -/
  keys : BitVec 16
  /-- The MODEL's own field: the inputs of the coming clock edges, next first. DESIGN CHOICE (log 1). -/
  pending : List Inputs
  /-- The MODEL's own field: how many random bytes have been drawn. DESIGN CHOICE (log 2). -/
  draws : Nat
  deriving DecidableEq, Repr

/-- The faults of the machine: none. Every fatal condition of the spec is a halt, whose effect 60_exceptions.md R193
states, so it is a next state (log 5); the type has no constructor and no step can answer a fault. -/
inductive Fault
  deriving DecidableEq, Repr

/-- The refusals of the machine. -/
inductive Refusal where
  /-- Raised only by an arm of `exec` for an instruction that has no meaning yet; no arm is left so. Safe: the model
  stops where the hardware goes on. -/
  | notModelled (mnemonic : String)
  deriving DecidableEq, Repr

/-- The machine right after reset: the table at the head of 10_state.md (R30, R220). `keys`, `pending` and `draws` are
not the spec's state: DESIGN CHOICE (logs 1, 2, 3). -/
def State.reset : State where
  v := Vector.replicate 16 0#8
  i := 0#16
  pc := Config.loadOffset
  stack := Vector.replicate 16 0#16
  sp := 0
  mem := []
  fb := Vector.replicate 32 (Vector.replicate 64 false)
  dt := 0#8
  st := 0#8
  running := false
  haltReason := .none
  fbChanged := false
  report := Option.none
  keys := 0#16
  pending := []
  draws := 0

end Sys2Proof.Machine
end

