-- ==== Sys2Proof/Machine/Ops.lean ====
section
/-! DEFINITION. The named operations over registers, `PC`, stack, memory, framebuffer, timers and keypad, and the halt:
entry and return. Every meaning is written over these. -/

namespace Sys2Proof.Machine

/-! ## General registers (10_state.md R10, R12) -/

/-- `V[x]`. -/
def State.readV (s : State) (x : Nibble) : Byte := s.v[x.toNat]'x.isLt

/-- `V[x] <- b`. -/
def State.writeV (s : State) (x : Nibble) (b : Byte) : State := { s with v := s.v.set x.toNat b x.isLt }

/-! ## Program counter (10_state.md R15, 40_execution_cycle.md R87) -/

/-- `PC <- PC + 2`. -/
def State.advance (s : State) : State := { s with pc := s.pc + 2#16 }

/-- `PC <- target`. -/
def State.jumpTo (s : State) (target : Word) : State := { s with pc := target }

/-- The skip of R105: `PC + 4` if the condition holds, else `PC + 2`. -/
def State.skipIf (s : State) (c : Bool) : State := { s with pc := if c then s.pc + 4#16 else s.pc + 2#16 }

/-- `I <- a`. -/
def State.writeI (s : State) (a : Word) : State := { s with i := a }

/-! ## Halts: taking one, and the way back (60_exceptions.md R193, R196, R198) -/

/-- Halt entry with cause `c`: `running <- 0`, `halt_reason <- c`, nothing else (R193). -/
def State.halt (s : State) (c : HaltReason) : State := { s with running := false, haltReason := c }

/-- Whether a reason is fatal: not `NONE` and not `STOP` (R191). -/
def HaltReason.fatal : HaltReason → Bool
  | .none => false
  | .stop => false
  | .pcOutOfBounds => true
  | .stackOverflow => true
  | .stackUnderflow => true
  | .memOutOfBounds => true

/-- The 3-bit code of a reason (R191). -/
def HaltReason.code : HaltReason → BitVec 3
  | .none => 0#3
  | .pcOutOfBounds => 1#3
  | .stackOverflow => 2#3
  | .stackUnderflow => 3#3
  | .memOutOfBounds => 4#3
  | .stop => 5#3

/-- The `Start` event (R81, R198): out of the halt of reset or of `STOP`; no effect while running or after a fatal
halt. -/
def State.start (s : State) : State :=
  if s.running = false ∧ s.haltReason.fatal = false then { s with running := true, haltReason := .none } else s

/-- The `Stop` event (R81, R196): no effect while halted. -/
def State.stop (s : State) : State := if s.running = true then s.halt .stop else s

/-! ## Stack (10_state.md R16) -/

/-- `STACK[SP] <- PC; SP <- SP + 1`; `none` when `SP = 16`. -/
def State.pushPC (s : State) : Option State :=
  if h : s.sp.val < 16 then
    some { s with stack := s.stack.set s.sp.val s.pc h, sp := ⟨s.sp.val + 1, Nat.succ_lt_succ h⟩ }
  else none

/-- `SP <- SP - 1` and the entry `STACK[SP]` read with the new `SP`; `none` when `SP = 0`. -/
def State.popEntry (s : State) : Option (Word × State) :=
  if h : 0 < s.sp.val then
    some (s.stack[s.sp.val - 1]'(by omega), { s with sp := ⟨s.sp.val - 1, by omega⟩ })
  else none

/-! ## Memory (20_memory.md) -/

/-- The byte at an address; 0x00 where none is listed (R30, R51). -/
def Memory.read : Memory → Nat → Byte
  | [], _ => 0#8
  | c :: m, a => if c.1 = a then c.2 else Memory.read m a

/-- The entry placed by rising address. -/
def Memory.insert : Memory → Nat → Byte → Memory
  | [], a, b => [(a, b)]
  | c :: m, a, b => if a < c.1 then (a, b) :: c :: m else c :: Memory.insert m a b

/-- `MEM[a] <- b`, keeping the canonical form: the old entry goes, and 0x00 is not listed. -/
def Memory.write (m : Memory) (a : Nat) (b : Byte) : Memory :=
  if b = 0#8 then m.filter (fun c => c.1 ≠ a) else Memory.insert (m.filter (fun c => c.1 ≠ a)) a b

/-- The bytes `MEM[a], MEM[a+1], …`, `n` of them. -/
def Memory.readBytes (m : Memory) (a : Nat) : Nat → List Byte
  | 0 => []
  | n + 1 => Memory.read m a :: Memory.readBytes m (a + 1) n

/-- `MEM[a] <- v[0], MEM[a+1] <- v[1], …`. -/
def Memory.writeBytes (m : Memory) (a : Nat) : List Byte → Memory
  | [] => m
  | b :: bs => Memory.writeBytes (Memory.write m a b) (a + 1) bs

/-- `MemRead(addr, n)` (R44): `none` stands for `raise MEM_OUT_OF_BOUNDS`. -/
def State.memRead (s : State) (addr n : Nat) : Option (List Byte) :=
  if addr + n - 1 > 4095 then none else some (s.mem.readBytes addr n)

/-- `MemWrite(addr, n, v)` with `n` the length of `v` (R45): `none` stands for `raise MEM_OUT_OF_BOUNDS`. -/
def State.memWrite (s : State) (addr : Nat) (bs : List Byte) : Option State :=
  if addr + bs.length - 1 > 4095 then none else some { s with mem := s.mem.writeBytes addr bs }

/-- The `Load(a, b)` event of the loader port (10_state.md R27): effective only while `running = 0`. -/
def State.load (s : State) (a : Addr) (b : Byte) : State :=
  if s.running = false then { s with mem := s.mem.write a.toNat b } else s

/-! ## Framebuffer (10_state.md R18, 44_display.md) -/

/-- `FB[r][c]`. -/
def Frame.pixel (f : Frame) (r : Fin 32) (c : Fin 64) : Bool := f[r.val][c.val]

/-- `FB[r][c] <- FB[r][c] ^ 1`. -/
def Frame.toggle (f : Frame) (r : Fin 32) (c : Fin 64) : Frame :=
  f.set r.val (f[r.val].set c.val (!f[r.val][c.val]))

/-- Every pixel off. -/
def Frame.off : Frame := Vector.replicate 32 (Vector.replicate 64 false)

/-- Row `r` reduced modulo the height 32 (R160). -/
def wrapRow (r : Nat) : Fin 32 := ⟨r % 32, Nat.mod_lt _ (by decide)⟩

/-- Column `c` reduced modulo the width 64 (R160). -/
def wrapCol (c : Nat) : Fin 64 := ⟨c % 64, Nat.mod_lt _ (by decide)⟩

/-- The pixels one sprite byte turns over, left to right: bit `7 - b` is the pixel at column offset `b` (R160, R162). -/
def rowPixels (r : Fin 32) (c0 : Nat) (byte : Byte) : List (Fin 32 × Fin 64) :=
  ((List.range 8).filter (fun b => byte.getLsbD (7 - b))).map (fun b => (r, wrapCol (c0 + b)))

/-- The pixels a sprite turns over, rows top to bottom, every pixel wrapped separately (R162). -/
def spritePixels (r0 c0 : Nat) : List Byte → List (Fin 32 × Fin 64)
  | [] => []
  | byte :: rows => rowPixels (wrapRow r0) c0 byte ++ spritePixels (r0 + 1) c0 rows

/-- The loop of R162 over the 1-bits of a sprite: an on pixel turned off sets `hit`, and every pixel is turned over. -/
def plot : List (Fin 32 × Fin 64) → Frame → Bool → Frame × Bool
  | [], f, hit => (f, hit)
  | p :: ps, f, hit => plot ps (f.toggle p.1 p.2) (hit || f.pixel p.1 p.2)

/-! ## Timers and keypad (10_state.md R19, R24) -/

/-- One timer's part of a tick: down to zero, and no further (R206). -/
def countDown (b : Byte) : Byte := if b.toNat > 0 then b - 1#8 else b

/-- The `TimerTick` event (R206), running or halted (R207). -/
def State.timerTick (s : State) : State := { s with dt := countDown s.dt, st := countDown s.st }

/-- `KEYS[k]` (R176). -/
def State.keyPressed (s : State) (k : Nibble) : Bool := s.keys.getLsbD k.toNat

/-- The smallest pressed key, if any is pressed (R173). -/
def State.lowestKey (s : State) : Option Nat := (List.range 16).find? (fun k => s.keys.getLsbD k)

/-! ## The random draw and the report -/

/-- `RandByte()` (R133): the free value of this draw, and the state that has made it. -/
def State.drawByte (s : State) : Byte × State := (Config.randByte s.draws, { s with draws := s.draws + 1 })

/-- `report Unknown(PC, w)` (R90). -/
def State.reportUnknown (s : State) (w : Word) : State := { s with report := some ⟨s.pc, w⟩ }

end Sys2Proof.Machine
end

