-- ==== Sys2Proof/Machine/Flags.lean ====
section
/-! DEFINITION. The ALU's results and flags (42_register_alu.md R120, R121) and the write of `VF` (10_state.md R12). -/

namespace Sys2Proof.Machine

/-- The byte a flag-setting instruction writes: exactly 0x00 or 0x01 (R12). -/
def flagByte (f : Bool) : Byte := if f then 1#8 else 0#8

/-- `V[15] <- flag`, always the last register write of its instruction (R121). -/
def State.writeFlag (s : State) (f : Bool) : State := s.writeV 0xF#4 (flagByte f)

/-- The sum modulo 256 (R120). -/
def addByte (a b : Byte) : Byte := BitVec.ofNat 8 ((a.toNat + b.toNat) % 256)

/-- The carry: the 9-bit sum exceeds 255 (R120). -/
def carryOut (a b : Byte) : Bool := decide (a.toNat + b.toNat > 255)

/-- The difference modulo 256 (R120). -/
def subByte (a b : Byte) : Byte := BitVec.ofInt 8 ((a.toNat : Int) - (b.toNat : Int))

/-- The complement of the borrow: 1 when `a >= b` (R120, R129). -/
def noBorrow (a b : Byte) : Bool := decide (b.toNat ≤ a.toNat)

/-- Shift right by one, zero fill (R120). -/
def shiftRightOne (a : Byte) : Byte := BitVec.ofNat 8 (a.toNat / 2)

/-- The bit a right shift puts out, `a[0]` (R120). -/
def outRight (a : Byte) : Bool := a.getLsbD 0

/-- Shift left by one, modulo 256 (R120). -/
def shiftLeftOne (a : Byte) : Byte := BitVec.ofNat 8 (a.toNat * 2 % 256)

/-- The bit a left shift puts out, `a[7]` (R120). -/
def outLeft (a : Byte) : Bool := a.getLsbD 7

/-- `VF` after `OR`, `AND`, `XOR` (R125): unchanged, or 0 where the switch `Q_LOGIC_RESETS_VF` is true. -/
def State.logicFlag (s : State) (resets : Bool) : State := if resets then s.writeFlag false else s

end Sys2Proof.Machine
end

