-- ==== Sys2Proof/Machine/Operands.lean ====
section
/-! DEFINITION. The operand forms: what the fields of a word stand for (30_encoding.md R63, 43_index_memory.md R140,
44_display.md R160). -/

namespace Sys2Proof.Machine

/-- `zext_16(addr)`: a target or an index, not scaled and not relative (R63). -/
def targetOf (addr : Addr) : Word := addr.setWidth 16

/-- `zext_16(b)`. -/
def widen (b : Byte) : Word := b.setWidth 16

/-- The low nibble of a register: the digit of R143, the key number of R174. -/
def lowNibble (b : Byte) : Nibble := b.extractLsb' 0 4

/-- The operand of a shift (R130): `V[x]`, or `V[y]` where the switch `Q_SHIFT_SOURCE_IS_VY` is true. -/
def State.shiftSource (s : State) (fromVY : Bool) (x y : Nibble) : Byte := if fromVY then s.readV y else s.readV x

/-- `FONT_BASE + 5 * d` (R143). -/
def glyphAddress (d : Nibble) : Word := Config.fontBase + BitVec.ofNat 16 (Config.fontStride * d.toNat)

/-- The effective base address of a transfer: `I` as a number, not reduced (R140). -/
def State.base (s : State) : Nat := s.i.toNat

/-- Hundreds, tens and ones of a byte, each a byte (R144). -/
def bcdDigits (b : Byte) : List Byte :=
  [BitVec.ofNat 8 (b.toNat / 100), BitVec.ofNat 8 (b.toNat / 10 % 10), BitVec.ofNat 8 (b.toNat % 10)]

/-- `[V[0], …, V[x]]` (R145). -/
def State.registersUpTo (s : State) (x : Nibble) : List Byte := s.v.toList.take (x.toNat + 1)

/-- `V[k] <- b[0], V[k+1] <- b[1], …` (R146). -/
def loadFrom : List Byte → Nat → Vector Byte 16 → Vector Byte 16
  | [], _, v => v
  | b :: bs, k, v => loadFrom bs (k + 1) (v.setIfInBounds k b)

/-- `I` after a register-range transfer of `n` bytes (R145, R146): unchanged, or `(I + n) mod 65536` where the switch
`Q_LDST_INCREMENTS_I` is true. -/
def State.afterTransfer (s : State) (increments : Bool) (n : Nat) : State :=
  if increments then s.writeI (s.i + BitVec.ofNat 16 n) else s

/-- The rows of a sprite (R162): none are read when `n = 0`; otherwise `MemRead(I, n)`. -/
def State.spriteRows (s : State) (n : Nibble) : Option (List Byte) :=
  if n.toNat > 0 then s.memRead s.base n.toNat else some []

/-- The first column of a sprite (R162): `V[x] mod 64`. -/
def State.spriteCol (s : State) (x : Nibble) : Nat := (s.readV x).toNat % 64

/-- The first row of a sprite (R162): `V[y] mod 32`. -/
def State.spriteRow (s : State) (y : Nibble) : Nat := (s.readV y).toNat % 32

end Sys2Proof.Machine
end

