-- ==== Sys2Proof/Machine/Alu.lean ====
section
/-! DEFINITION. The register file and ALU instructions (42_register_alu.md). Operands are read before any write, the
result is written, then the flag (R121), and each ends with `PC <- PC + 2`. -/

namespace Sys2Proof.Machine

/-- `6xkk` (R122). -/
def execSetRegister (x : Nibble) (kk : Byte) (s : State) : Host.Outcome State Fault Refusal :=
  .next (s.writeV x kk).advance

/-- `7xkk` (R123): no flag. -/
def execAddRegister (x : Nibble) (kk : Byte) (s : State) : Host.Outcome State Fault Refusal :=
  .next (s.writeV x (addByte (s.readV x) kk)).advance

/-- `8xy0` (R124). -/
def execCopyRegister (x y : Nibble) (s : State) : Host.Outcome State Fault Refusal :=
  .next (s.writeV x (s.readV y)).advance

/-- `8xy1` (R125). -/
def execOrRegister (x y : Nibble) (s : State) : Host.Outcome State Fault Refusal :=
  .next ((s.writeV x (s.readV x ||| s.readV y)).logicFlag Config.logicResetsVF).advance

/-- `8xy2` (R126). -/
def execAndRegister (x y : Nibble) (s : State) : Host.Outcome State Fault Refusal :=
  .next ((s.writeV x (s.readV x &&& s.readV y)).logicFlag Config.logicResetsVF).advance

/-- `8xy3` (R127). -/
def execXorRegister (x y : Nibble) (s : State) : Host.Outcome State Fault Refusal :=
  .next ((s.writeV x (s.readV x ^^^ s.readV y)).logicFlag Config.logicResetsVF).advance

/-- `8xy4` (R128). -/
def execAddRegisterWithCarry (x y : Nibble) (s : State) : Host.Outcome State Fault Refusal :=
  .next ((s.writeV x (addByte (s.readV x) (s.readV y))).writeFlag (carryOut (s.readV x) (s.readV y))).advance

/-- `8xy5` (R129). -/
def execSubRegister (x y : Nibble) (s : State) : Host.Outcome State Fault Refusal :=
  .next ((s.writeV x (subByte (s.readV x) (s.readV y))).writeFlag (noBorrow (s.readV x) (s.readV y))).advance

/-- `8xy6` (R130). -/
def execShiftRight (x y : Nibble) (s : State) : Host.Outcome State Fault Refusal :=
  let a := s.shiftSource Config.shiftSourceIsVY x y
  .next ((s.writeV x (shiftRightOne a)).writeFlag (outRight a)).advance

/-- `8xy7` (R131). -/
def execSubRegisterReverse (x y : Nibble) (s : State) : Host.Outcome State Fault Refusal :=
  .next ((s.writeV x (subByte (s.readV y) (s.readV x))).writeFlag (noBorrow (s.readV y) (s.readV x))).advance

/-- `8xyE` (R132). -/
def execShiftLeft (x y : Nibble) (s : State) : Host.Outcome State Fault Refusal :=
  let a := s.shiftSource Config.shiftSourceIsVY x y
  .next ((s.writeV x (shiftLeftOne a)).writeFlag (outLeft a)).advance

/-- `Cxkk` (R133): the byte drawn is a free value (log 2). -/
def execRandomAnd (x : Nibble) (kk : Byte) (s : State) : Host.Outcome State Fault Refusal :=
  .next (s.drawByte.2.writeV x (s.drawByte.1 &&& kk)).advance

end Sys2Proof.Machine
end

