-- ==== Sys2Proof/Machine/Control.lean ====
section
/-! DEFINITION. The control transfers (41_control_flow.md) and the unknown outcome (40_execution_cycle.md R90). -/

namespace Sys2Proof.Machine

/-- `00EE` (R101): the entry is the address of the call, so the return adds 2 (C1). -/
def execReturnFromSubroutine (s : State) : Host.Outcome State Fault Refusal :=
  match s.popEntry with
  | none => .next (s.halt .stackUnderflow)
  | some (entry, t) => .next (t.jumpTo (entry + 2#16))

/-- `1nnn` (R102). -/
def execJump (addr : Addr) (s : State) : Host.Outcome State Fault Refusal :=
  .next (s.jumpTo (targetOf addr))

/-- `2nnn` (R103): the value pushed is the address of the call itself. -/
def execCallSubroutine (addr : Addr) (s : State) : Host.Outcome State Fault Refusal :=
  match s.pushPC with
  | none => .next (s.halt .stackOverflow)
  | some t => .next (t.jumpTo (targetOf addr))

/-- `Bnnn` (R104): at most 0x10FE, not reduced. -/
def execJumpWithOffset (addr : Addr) (s : State) : Host.Outcome State Fault Refusal :=
  .next (s.jumpTo (targetOf addr + widen (s.readV 0x0#4)))

/-- `3xkk` (R105). -/
def execSkipIfEqual (x : Nibble) (kk : Byte) (s : State) : Host.Outcome State Fault Refusal :=
  .next (s.skipIf (s.readV x == kk))

/-- `4xkk` (R106). -/
def execSkipIfNotEqual (x : Nibble) (kk : Byte) (s : State) : Host.Outcome State Fault Refusal :=
  .next (s.skipIf (s.readV x != kk))

/-- `5xy0` (R107). -/
def execSkipIfRegistersEqual (x y : Nibble) (s : State) : Host.Outcome State Fault Refusal :=
  .next (s.skipIf (s.readV x == s.readV y))

/-- `9xy0` (R108). -/
def execSkipIfRegistersNotEqual (x y : Nibble) (s : State) : Host.Outcome State Fault Refusal :=
  .next (s.skipIf (s.readV x != s.readV y))

/-- Any other word (R90): a report, and `PC <- PC + 2`. -/
def execUnknown (w : Word) (s : State) : Host.Outcome State Fault Refusal :=
  .next (s.reportUnknown w).advance

end Sys2Proof.Machine
end

