-- ==== Sys2Proof/Machine/Devices.lean ====
section
/-! DEFINITION. The timer and keypad instructions (45_timers_keypad.md). -/

namespace Sys2Proof.Machine

/-- `Fx07` (R170). -/
def execLoadDelayTimer (x : Nibble) (s : State) : Host.Outcome State Fault Refusal :=
  .next (s.writeV x s.dt).advance

/-- `Fx15` (R171). -/
def execSetDelayTimer (x : Nibble) (s : State) : Host.Outcome State Fault Refusal :=
  .next ({ s with dt := s.readV x }).advance

/-- `Fx18` (R172). -/
def execSetSoundTimer (x : Nibble) (s : State) : Host.Outcome State Fault Refusal :=
  .next ({ s with st := s.readV x }).advance

/-- `Fx0A` (R173): with no key pressed nothing is written, `PC` included. -/
def execWaitForKey (x : Nibble) (s : State) : Host.Outcome State Fault Refusal :=
  match s.lowestKey with
  | none => .next s
  | some k => .next (s.writeV x (BitVec.ofNat 8 k)).advance

/-- `Ex9E` (R174). -/
def execSkipIfKeyPressed (x : Nibble) (s : State) : Host.Outcome State Fault Refusal :=
  .next (s.skipIf (s.keyPressed (lowNibble (s.readV x))))

/-- `ExA1` (R175). -/
def execSkipIfKeyNotPressed (x : Nibble) (s : State) : Host.Outcome State Fault Refusal :=
  .next (s.skipIf (!s.keyPressed (lowNibble (s.readV x))))

end Sys2Proof.Machine
end

