-- ==== Sys2Proof/Machine/Display.lean ====
section
/-! DEFINITION. The display instructions (44_display.md). -/

namespace Sys2Proof.Machine

/-- The write of the framebuffer by `ClearScreen` and `Draw`, with the `fb_changed` pulse (10_state.md R28). -/
def State.writeFrame (s : State) (f : Frame) : State := { s with fb := f, fbChanged := true }

/-- `00E0` (R161). -/
def execClearScreen (s : State) : Host.Outcome State Fault Refusal :=
  .next (s.writeFrame Frame.off).advance

/-- `Dxyn` (R162): coordinates and sprite are read before any write, and `VF` is written last. -/
def execDraw (x y n : Nibble) (s : State) : Host.Outcome State Fault Refusal :=
  match s.spriteRows n with
  | none => .next (s.halt .memOutOfBounds)
  | some rows =>
    let drawn := plot (spritePixels (s.spriteRow y) (s.spriteCol x) rows) s.fb false
    .next ((s.writeFrame drawn.1).writeFlag drawn.2).advance

end Sys2Proof.Machine
end

