-- ==== Sys2Proof/Machine/Index.lean ====
section
/-! DEFINITION. The index register and memory instructions (43_index_memory.md). A transfer any byte of which lies
outside memory halts before anything is read or written (R140). -/

namespace Sys2Proof.Machine

/-- `Annn` (R141). -/
def execSetIndexRegister (addr : Addr) (s : State) : Host.Outcome State Fault Refusal :=
  .next (s.writeI (targetOf addr)).advance

/-- `Fx1E` (R142): 16 bits kept, `VF` not written. -/
def execAddToIndex (x : Nibble) (s : State) : Host.Outcome State Fault Refusal :=
  .next (s.writeI (s.i + widen (s.readV x))).advance

/-- `Fx29` (R143). -/
def execSetIndexToGlyph (x : Nibble) (s : State) : Host.Outcome State Fault Refusal :=
  .next (s.writeI (glyphAddress (lowNibble (s.readV x)))).advance

/-- `Fx33` (R144). -/
def execStoreBcd (x : Nibble) (s : State) : Host.Outcome State Fault Refusal :=
  match s.memWrite s.base (bcdDigits (s.readV x)) with
  | none => .next (s.halt .memOutOfBounds)
  | some t => .next t.advance

/-- `Fx55` (R145). -/
def execStoreRegisters (x : Nibble) (s : State) : Host.Outcome State Fault Refusal :=
  match s.memWrite s.base (s.registersUpTo x) with
  | none => .next (s.halt .memOutOfBounds)
  | some t => .next (t.afterTransfer Config.ldStIncrementsI (x.toNat + 1)).advance

/-- `Fx65` (R146). -/
def execLoadRegisters (x : Nibble) (s : State) : Host.Outcome State Fault Refusal :=
  match s.memRead s.base (x.toNat + 1) with
  | none => .next (s.halt .memOutOfBounds)
  | some bs =>
    .next (({ s with v := loadFrom bs 0 s.v }).afterTransfer Config.ldStIncrementsI (x.toNat + 1)).advance

end Sys2Proof.Machine
end

