-- ==== Sys2Proof/Machine/Dispatch.lean ====
section
/-! DEFINITION. The dispatch (40_execution_cycle.md R86): exactly one meaning per operation, in the table's order. -/

namespace Sys2Proof.Machine

def exec (i : Instr) (s : State) : Host.Outcome State Fault Refusal :=
  match i with
  | .clearScreen => Sys2Proof.Machine.execClearScreen s
  | .returnFromSubroutine => Sys2Proof.Machine.execReturnFromSubroutine s
  | .jump addr => Sys2Proof.Machine.execJump addr s
  | .callSubroutine addr => Sys2Proof.Machine.execCallSubroutine addr s
  | .skipIfEqual x kk => Sys2Proof.Machine.execSkipIfEqual x kk s
  | .skipIfNotEqual x kk => Sys2Proof.Machine.execSkipIfNotEqual x kk s
  | .skipIfRegistersEqual x y => Sys2Proof.Machine.execSkipIfRegistersEqual x y s
  | .setRegister x kk => Sys2Proof.Machine.execSetRegister x kk s
  | .addRegister x kk => Sys2Proof.Machine.execAddRegister x kk s
  | .copyRegister x y => Sys2Proof.Machine.execCopyRegister x y s
  | .orRegister x y => Sys2Proof.Machine.execOrRegister x y s
  | .andRegister x y => Sys2Proof.Machine.execAndRegister x y s
  | .xorRegister x y => Sys2Proof.Machine.execXorRegister x y s
  | .addRegisterWithCarry x y => Sys2Proof.Machine.execAddRegisterWithCarry x y s
  | .subRegister x y => Sys2Proof.Machine.execSubRegister x y s
  | .shiftRight x y => Sys2Proof.Machine.execShiftRight x y s
  | .subRegisterReverse x y => Sys2Proof.Machine.execSubRegisterReverse x y s
  | .shiftLeft x y => Sys2Proof.Machine.execShiftLeft x y s
  | .skipIfRegistersNotEqual x y => Sys2Proof.Machine.execSkipIfRegistersNotEqual x y s
  | .setIndexRegister addr => Sys2Proof.Machine.execSetIndexRegister addr s
  | .jumpWithOffset addr => Sys2Proof.Machine.execJumpWithOffset addr s
  | .randomAnd x kk => Sys2Proof.Machine.execRandomAnd x kk s
  | .draw x y n => Sys2Proof.Machine.execDraw x y n s
  | .skipIfKeyPressed x => Sys2Proof.Machine.execSkipIfKeyPressed x s
  | .skipIfKeyNotPressed x => Sys2Proof.Machine.execSkipIfKeyNotPressed x s
  | .loadDelayTimer x => Sys2Proof.Machine.execLoadDelayTimer x s
  | .waitForKey x => Sys2Proof.Machine.execWaitForKey x s
  | .setDelayTimer x => Sys2Proof.Machine.execSetDelayTimer x s
  | .setSoundTimer x => Sys2Proof.Machine.execSetSoundTimer x s
  | .addToIndex x => Sys2Proof.Machine.execAddToIndex x s
  | .setIndexToGlyph x => Sys2Proof.Machine.execSetIndexToGlyph x s
  | .storeBcd x => Sys2Proof.Machine.execStoreBcd x s
  | .storeRegisters x => Sys2Proof.Machine.execStoreRegisters x s
  | .loadRegisters x => Sys2Proof.Machine.execLoadRegisters x s
  | .unknown w => Sys2Proof.Machine.execUnknown w s

end Sys2Proof.Machine
end

