-- ==== Sys2Proof/Machine/Cycle.lean ====
section
/-! DEFINITION. The instruction step (40_execution_cycle.md R82), the seven events (R81) and the clock edge (R89). -/

namespace Sys2Proof.Machine

/-! ## One instruction step -/

/-- Fetch (R83, R84): the big-endian word at `PC`, or `none` when `PC + 1` is outside memory. -/
def State.fetch (s : State) : Option Word :=
  if s.pc.toNat + 1 > 4095 then none
  else some (wordOfBytes (s.mem.read s.pc.toNat) (s.mem.read (s.pc.toNat + 1)))

/-- One instruction step (R82). While halted nothing happens (R80, R194). -/
def instrStep (s : State) : Host.Outcome State Fault Refusal :=
  if s.running = false then .next s
  else
    match s.fetch with
    | none => .next (s.halt .pcOutOfBounds)
    | some w => exec (decodeWord w) s

/-! ## Events -/

/-- The events of R81. -/
inductive Event where
  /-- The host's `rst`. -/
  | reset
  /-- The loader port. -/
  | load (a : Addr) (b : Byte)
  /-- The host's `start`. -/
  | start
  /-- The host's `stop_req`. -/
  | stop
  /-- One instruction step of the core. -/
  | step
  /-- The external scheduler's tick. -/
  | timerTick
  /-- The keypad vector becomes `k`. -/
  | keys (k : BitVec 16)
  deriving DecidableEq, Repr

/-- The `Reset` event (70_reset_and_hazards.md R220): every piece of the machine's state at its reset value. What the
host drives and the count of draws are no state of the machine and go on (DESIGN CHOICE, log 4). -/
def State.resetEvent (s : State) : State :=
  { State.reset with keys := s.keys, pending := s.pending, draws := s.draws }

/-- The effect of one event (R81). -/
def applyEvent (e : Event) (s : State) : Host.Outcome State Fault Refusal :=
  match e with
  | .reset => .next s.resetEvent
  | .load a b => .next (s.load a b)
  | .start => .next s.start
  | .stop => .next s.stop
  | .step => instrStep s
  | .timerTick => .next s.timerTick
  | .keys k => .next { s with keys := k }

/-- A sequence of events, each applied to the state the one before it left (R81, R89). -/
def runEvents : List Event → State → Host.Outcome State Fault Refusal
  | [], s => .next s
  | e :: es, s =>
    match applyEvent e s with
    | .next t => runEvents es t
    | .fault r => .fault r
    | .refused r => .refused r

/-- The host's boot sequence (70_reset_and_hazards.md R224) for given ROM bytes and further `Load`s (the font):
`Reset`, the `Load`s, `Start`. The host gives at most 3584 ROM bytes (R226). -/
def romLoads : Nat → List Byte → List Event
  | _, [] => []
  | a, b :: bs => .load (BitVec.ofNat 12 a) b :: romLoads (a + 1) bs

/-- The boot sequence of R224. -/
def bootEvents (rom : List Byte) (font : List Byte) : List Event :=
  .reset :: (romLoads 0x200 rom ++ romLoads 0x050 font ++ [.start])

/-! ## Clock edges -/

/-- The events of one clock edge, in the order of R89: `Reset` alone; or the keypad vector, `Load`, `Start`, `Stop`,
`Step`, `TimerTick`. -/
def edgeEvents (p : Inputs) : List Event :=
  if p.rst then [.reset]
  else
    [.keys p.keys] ++ (if p.ldWe then [.load p.ldAddr p.ldData] else []) ++ (if p.start then [.start] else []) ++
      (if p.stopReq then [.stop] else []) ++ (if p.step then [.step] else []) ++
      (if p.timerTick then [.timerTick] else [])

/-- What is driven at the next clock edge: the first of the coming inputs; where none is listed, `step` alone with the
keypad as it is (DESIGN CHOICE, log 1). -/
def State.nextInputs (s : State) : Inputs :=
  match s.pending with
  | [] => { step := true, keys := s.keys }
  | p :: _ => p

/-- The state as a clock edge finds it: its inputs are taken from the list, and the one-period outputs of the edge
before it are over (10_state.md R28, R29). -/
def State.beginEdge (s : State) : State := { s with pending := s.pending.tail, fbChanged := false, report := none }

/-- One clock edge (R25, R89). -/
def clockEdge (s : State) : Host.Outcome State Fault Refusal :=
  runEvents (edgeEvents s.nextInputs) s.beginEdge

/-- The state in which the next fetch reads `w` and the next clock edge is one instruction step of a running core: the
word at `PC`, high byte first (20_memory.md R41); `PC` moved to `LOAD_OFFSET` only where no fetch from it can succeed;
started, and no other input pending (log 4). -/
def State.placeWord (s : State) (w : Word) : State :=
  let pc := if s.pc.toNat + 1 > 4095 then Config.loadOffset else s.pc
  { s with
    pc := pc
    mem := s.mem.writeBytes pc.toNat (bytesOfWord w)
    running := true
    haltReason := .none
    pending := [] }

end Sys2Proof.Machine
end

