-- ==== Sys2Proof/Machine/Step.lean ====
section
/-! DEFINITION. The step of the model: one clock edge (log 1), and the placing of a word for the next one. -/

namespace Sys2Proof.Machine

/-- One clock edge (40_execution_cycle.md R89). -/
def step (s : State) : Host.Outcome State Fault Refusal := clockEdge s

/-- `s` with the instruction whose bits are `w`, numbered as spec/opcode_table.json numbers them, placed so that the
next step fetches and runs it (log 4). -/
def State.withFetchWord (s : State) (nbits w : Nat) : State := s.placeWord (BitVec.ofNat 16 (w % 2 ^ nbits))

end Sys2Proof.Machine
end

