-- ==== Sys2Proof/Machine/Outputs.lean ====
section
/-! DEFINITION. The outputs the host sees (10_state.md R28, R29), functions of the state. -/

namespace Sys2Proof.Machine

/-- `fb_pixel` for `fb_row`, `fb_col` (R28). -/
def State.fbPixel (s : State) (row : BitVec 5) (col : BitVec 6) : Bool := s.fb.pixel ⟨row.toNat, row.isLt⟩ ⟨col.toNat, col.isLt⟩

/-- `sound_on`: exactly when `ST` is not 0 (R29, R208). -/
def State.soundOn (s : State) : Bool := s.st != 0#8

/-- `halt_reason` (R29). -/
def State.haltCode (s : State) : BitVec 3 := s.haltReason.code

/-- `unk_valid` (R29). -/
def State.unkValid (s : State) : Bool := s.report.isSome

/-- `unk_word` while `unk_valid` is 1; the spec states no value otherwise (R29, log 10). -/
def State.unkWord (s : State) : Option Word := s.report.map (fun r => r.word)

/-- `unk_pc` while `unk_valid` is 1; the spec states no value otherwise (R29, log 10). -/
def State.unkPC (s : State) : Option Word := s.report.map (fun r => r.pc)

end Sys2Proof.Machine
end

