-- ==== Sys2Proof/Safety.lean ====
section
/-! DEFINITION. The terms the statements use: the invariant of every reachable state, what each operation may write, the
bytes it stores to, the pixels a sprite covers. -/

namespace Sys2Proof.Machine

/-- What identifies a fatal halt afterwards (60_exceptions.md R191, last column). -/
abbrev State.haltIdentified (s : State) : Prop :=
  (s.haltReason = .pcOutOfBounds → 0x0FFF ≤ s.pc.toNat) ∧
  (s.haltReason = .stackOverflow → s.sp.val = 16) ∧
  (s.haltReason = .stackUnderflow → s.sp.val = 0)

/-- The invariant of every reachable state: memory is in canonical form (and so inside the 4096 bytes of R17); `PC` is at
most 0x10FE (10_state.md R31); every stack entry is a `PC` from which a fetch succeeded (41_control_flow.md R103);
`halt_reason` is `NONE` whenever `running` is 1 (R31); and a fatal halt is identified as R191 says. `SP <= 16` and the
0-or-1 pixels of R31 hold by the types of the fields. -/
abbrev State.Inv (s : State) : Prop :=
  s.mem.wf ∧ s.pc.toNat ≤ 0x10FE ∧ (∀ j : Fin 16, s.stack[j.val].toNat ≤ 0x0FFE) ∧
  (s.running = true → s.haltReason = .none) ∧ s.haltIdentified

/-- Whether an operation may write general register `k` (10_state.md R11): its destination, and `VF` where the operation
sets the flag. -/
def mayWriteV (i : Instr) (k : Nibble) : Bool :=
  match i with
  | .setRegister x _ => k == x
  | .addRegister x _ => k == x
  | .copyRegister x _ => k == x
  | .orRegister x _ => k == x
  | .andRegister x _ => k == x
  | .xorRegister x _ => k == x
  | .addRegisterWithCarry x _ => k == x || k == 0xF#4
  | .subRegister x _ => k == x || k == 0xF#4
  | .shiftRight x _ => k == x || k == 0xF#4
  | .subRegisterReverse x _ => k == x || k == 0xF#4
  | .shiftLeft x _ => k == x || k == 0xF#4
  | .randomAnd x _ => k == x
  | .draw _ _ _ => k == 0xF#4
  | .loadDelayTimer x => k == x
  | .waitForKey x => k == x
  | .loadRegisters x => decide (k.toNat ≤ x.toNat)
  | .clearScreen => false
  | .returnFromSubroutine => false
  | .jump _ => false
  | .callSubroutine _ => false
  | .skipIfEqual _ _ => false
  | .skipIfNotEqual _ _ => false
  | .skipIfRegistersEqual _ _ => false
  | .skipIfRegistersNotEqual _ _ => false
  | .setIndexRegister _ => false
  | .jumpWithOffset _ => false
  | .skipIfKeyPressed _ => false
  | .skipIfKeyNotPressed _ => false
  | .setDelayTimer _ => false
  | .setSoundTimer _ => false
  | .addToIndex _ => false
  | .setIndexToGlyph _ => false
  | .storeBcd _ => false
  | .storeRegisters _ => false
  | .unknown _ => false

/-- How many bytes an operation stores, from `s.base` on (20_memory.md R47): three, `x + 1`, or none. -/
def storedCount (i : Instr) : Nat :=
  match i with
  | .storeBcd _ => 3
  | .storeRegisters x => x.toNat + 1
  | .clearScreen => 0
  | .returnFromSubroutine => 0
  | .jump _ => 0
  | .callSubroutine _ => 0
  | .skipIfEqual _ _ => 0
  | .skipIfNotEqual _ _ => 0
  | .skipIfRegistersEqual _ _ => 0
  | .setRegister _ _ => 0
  | .addRegister _ _ => 0
  | .copyRegister _ _ => 0
  | .orRegister _ _ => 0
  | .andRegister _ _ => 0
  | .xorRegister _ _ => 0
  | .addRegisterWithCarry _ _ => 0
  | .subRegister _ _ => 0
  | .shiftRight _ _ => 0
  | .subRegisterReverse _ _ => 0
  | .shiftLeft _ _ => 0
  | .skipIfRegistersNotEqual _ _ => 0
  | .setIndexRegister _ => 0
  | .jumpWithOffset _ => 0
  | .randomAnd _ _ => 0
  | .draw _ _ _ => 0
  | .skipIfKeyPressed _ => 0
  | .skipIfKeyNotPressed _ => 0
  | .loadDelayTimer _ => 0
  | .waitForKey _ => 0
  | .setDelayTimer _ => 0
  | .setSoundTimer _ => 0
  | .addToIndex _ => 0
  | .setIndexToGlyph _ => 0
  | .loadRegisters _ => 0
  | .unknown _ => 0

/-- The pixel at row `r`, column `c` is one that a 1-bit of the sprite of `Draw(x, y, n)` falls on (44_display.md R162):
bit `7 - b` of sprite row `j`, which stands at row `(V[y] + j) mod 32`, column `(V[x] + b) mod 64`. -/
def spriteCovers (s : State) (x y n : Nibble) (r : Fin 32) (c : Fin 64) : Prop :=
  ∃ j b : Nat, j < n.toNat ∧ b < 8 ∧ (s.mem.read (s.i.toNat + j)).getLsbD (7 - b) = true ∧
    r.val = ((s.readV y).toNat % 32 + j) % 32 ∧ c.val = ((s.readV x).toNat % 64 + b) % 64

/-- The three operations whose result depends on the keypad (40_execution_cycle.md R93). -/
def readsKeys (i : Instr) : Prop :=
  (∃ x, i = .skipIfKeyPressed x) ∨ (∃ x, i = .skipIfKeyNotPressed x) ∨ (∃ x, i = .waitForKey x)

/-- The two operations that write the framebuffer (10_state.md R18). -/
def writesFrame (i : Instr) : Prop := i = .clearScreen ∨ ∃ x y n, i = .draw x y n

/-- The three operations that write `I` (10_state.md R13). -/
def writesIndex (i : Instr) : Prop :=
  (∃ a, i = .setIndexRegister a) ∨ (∃ x, i = .addToIndex x) ∨ (∃ x, i = .setIndexToGlyph x)

/-- The same outcome with a change made to its next state. -/
def mapNext (f : State → State) : Host.Outcome State Fault Refusal → Host.Outcome State Fault Refusal
  | .next t => .next (f t)
  | .fault r => .fault r
  | .refused r => .refused r

end Sys2Proof.Machine
end

