-- ==== Sys2Proof/Certificates/Slice0/Obligations.lean ====
section
/-! DEFINITION. The statements for the provers. Each docstring names the rule of spec/ it formalises. `s` is the state before,
`t` the state after. An equation `t = { s with … := t.… }` says that every other piece of state is as in `s`. -/

open Sys2Proof Sys2Proof.Machine

/-! ## Encoding -/

/-- 30_encoding.md R64, R73, section 3: the decoder gives back every well-formed operation from its word, with every
operand. -/
def Obligations.DecodeOfEncode : Prop := ∀ i : Instr, wellFormed i = true → decodeWord (encode i) = i

/-- 30_encoding.md R64: every one of the 65536 words decodes to a well-formed operation, and no bit of the word is
lost. -/
def Obligations.EncodeOfDecode : Prop :=
  ∀ w : Word, wellFormed (decodeWord w) = true ∧ encode (decodeWord w) = w

/-- 30_encoding.md R72: a word is unknown exactly when it is in R72's list. -/
def Obligations.UnknownExactlyTheListedWords : Prop :=
  ∀ w : Word, decodeWord w = .unknown w ↔ isUnknownWord w = true

/-- Decode vectors of 95_test_vectors.md section 2. -/
def Obligations.DecodeOfListedWords : Prop :=
  decodeWord 0x00E0#16 = .clearScreen ∧ decodeWord 0x00EE#16 = .returnFromSubroutine ∧
  decodeWord 0x01E0#16 = .unknown 0x01E0#16 ∧ decodeWord 0x2ABC#16 = .callSubroutine 0xABC#12 ∧
  decodeWord 0x3A7F#16 = .skipIfEqual 0xA#4 0x7F#8 ∧ decodeWord 0x5121#16 = .unknown 0x5121#16 ∧
  decodeWord 0x8AB7#16 = .subRegisterReverse 0xA#4 0xB#4 ∧ decodeWord 0x8AB8#16 = .unknown 0x8AB8#16 ∧
  decodeWord 0xDABF#16 = .draw 0xA#4 0xB#4 0xF#4 ∧ decodeWord 0xEF9E#16 = .skipIfKeyPressed 0xF#4 ∧
  decodeWord 0xF265#16 = .loadRegisters 0x2#4 ∧ decodeWord 0xFFFF#16 = .unknown 0xFFFF#16

/-! ## Register file and ALU (42_register_alu.md) -/

/-- R122 `SetRegister(x, kk)`. -/
def Obligations.SetRegisterWritesTheImmediate : Prop :=
  ∀ (x : Nibble) (kk : Byte) (s : State), decodeWord (orXKK 0x6000#16 x kk) = .setRegister x kk ∧
    ∃ t, exec (.setRegister x kk) s = .next t ∧ t.readV x = kk ∧ (∀ k, k ≠ x → t.readV k = s.readV k) ∧
      t.pc = s.pc + 2#16 ∧ t = { s with v := t.v, pc := t.pc }

/-- R123 `AddRegister(x, kk)`: wraps, and `VF` is not written as a flag. -/
def Obligations.AddRegisterWrapsWithoutFlag : Prop :=
  ∀ (x : Nibble) (kk : Byte) (s : State), decodeWord (orXKK 0x7000#16 x kk) = .addRegister x kk ∧
    ∃ t, exec (.addRegister x kk) s = .next t ∧ (t.readV x).toNat = ((s.readV x).toNat + kk.toNat) % 256 ∧
      (∀ k, k ≠ x → t.readV k = s.readV k) ∧ t.pc = s.pc + 2#16 ∧ t = { s with v := t.v, pc := t.pc }

/-- R124 `CopyRegister(x, y)`. -/
def Obligations.CopyRegisterCopies : Prop :=
  ∀ (x y : Nibble) (s : State), decodeWord (orXY 0x8000#16 x y) = .copyRegister x y ∧
    ∃ t, exec (.copyRegister x y) s = .next t ∧ t.readV x = s.readV y ∧ (∀ k, k ≠ x → t.readV k = s.readV k) ∧
      t.pc = s.pc + 2#16 ∧ t = { s with v := t.v, pc := t.pc }

/-- R125, R126, R127 `OrRegister`, `AndRegister`, `XorRegister`, bit by bit: `VF` is left unchanged. -/
def Obligations.LogicIsBitwiseWithoutFlag : Prop :=
  ∀ (x y : Nibble) (s : State),
    (decodeWord (orXY 0x8001#16 x y) = .orRegister x y ∧
      ∃ t, exec (.orRegister x y) s = .next t ∧
        (∀ j, j < 8 → (t.readV x).getLsbD j = ((s.readV x).getLsbD j || (s.readV y).getLsbD j)) ∧
        (∀ k, k ≠ x → t.readV k = s.readV k) ∧ t.pc = s.pc + 2#16 ∧ t = { s with v := t.v, pc := t.pc }) ∧
    (decodeWord (orXY 0x8002#16 x y) = .andRegister x y ∧
      ∃ t, exec (.andRegister x y) s = .next t ∧
        (∀ j, j < 8 → (t.readV x).getLsbD j = ((s.readV x).getLsbD j && (s.readV y).getLsbD j)) ∧
        (∀ k, k ≠ x → t.readV k = s.readV k) ∧ t.pc = s.pc + 2#16 ∧ t = { s with v := t.v, pc := t.pc }) ∧
    (decodeWord (orXY 0x8003#16 x y) = .xorRegister x y ∧
      ∃ t, exec (.xorRegister x y) s = .next t ∧
        (∀ j, j < 8 → (t.readV x).getLsbD j = ((s.readV x).getLsbD j ^^ (s.readV y).getLsbD j)) ∧
        (∀ k, k ≠ x → t.readV k = s.readV k) ∧ t.pc = s.pc + 2#16 ∧ t = { s with v := t.v, pc := t.pc })

/-- R128 `AddRegisterWithCarry(x, y)`: the carry is written to `VF` last, so with `x = 0xF` it is the value that stays. -/
def Obligations.AddWithCarrySetsFlagLast : Prop :=
  ∀ (x y : Nibble) (s : State), decodeWord (orXY 0x8004#16 x y) = .addRegisterWithCarry x y ∧
    ∃ t, exec (.addRegisterWithCarry x y) s = .next t ∧
      (x ≠ 0xF#4 → (t.readV x).toNat = ((s.readV x).toNat + (s.readV y).toNat) % 256) ∧
      t.readV 0xF#4 = (if (s.readV x).toNat + (s.readV y).toNat > 255 then 1#8 else 0#8) ∧
      (∀ k, k ≠ x → k ≠ 0xF#4 → t.readV k = s.readV k) ∧ t.pc = s.pc + 2#16 ∧ t = { s with v := t.v, pc := t.pc }

/-- R129, R131 `SubRegister`, `SubRegisterReverse`: the difference modulo 256, and `VF` 1 when there is no borrow, at
equality too. -/
def Obligations.SubtractionsSetNoBorrow : Prop :=
  ∀ (x y : Nibble) (s : State),
    (decodeWord (orXY 0x8005#16 x y) = .subRegister x y ∧
      ∃ t, exec (.subRegister x y) s = .next t ∧
        (x ≠ 0xF#4 → (t.readV x).toNat = ((s.readV x).toNat + 256 - (s.readV y).toNat) % 256) ∧
        t.readV 0xF#4 = (if (s.readV x).toNat ≥ (s.readV y).toNat then 1#8 else 0#8) ∧
        (∀ k, k ≠ x → k ≠ 0xF#4 → t.readV k = s.readV k) ∧ t.pc = s.pc + 2#16 ∧
        t = { s with v := t.v, pc := t.pc }) ∧
    (decodeWord (orXY 0x8007#16 x y) = .subRegisterReverse x y ∧
      ∃ t, exec (.subRegisterReverse x y) s = .next t ∧
        (x ≠ 0xF#4 → (t.readV x).toNat = ((s.readV y).toNat + 256 - (s.readV x).toNat) % 256) ∧
        t.readV 0xF#4 = (if (s.readV y).toNat ≥ (s.readV x).toNat then 1#8 else 0#8) ∧
        (∀ k, k ≠ x → k ≠ 0xF#4 → t.readV k = s.readV k) ∧ t.pc = s.pc + 2#16 ∧
        t = { s with v := t.v, pc := t.pc })

/-- R130, R132 `ShiftRight`, `ShiftLeft`: `V[x]` in place, every `y` the same, the bit shifted out written to `VF`
last. -/
def Obligations.ShiftsSetTheBitShiftedOut : Prop :=
  ∀ (x y : Nibble) (s : State),
    (decodeWord (orXY 0x8006#16 x y) = .shiftRight x y ∧
      ∃ t, exec (.shiftRight x y) s = .next t ∧
        (x ≠ 0xF#4 → (t.readV x).toNat = (s.readV x).toNat / 2) ∧
        (t.readV 0xF#4).toNat = (s.readV x).toNat % 2 ∧
        (∀ k, k ≠ x → k ≠ 0xF#4 → t.readV k = s.readV k) ∧ t.pc = s.pc + 2#16 ∧
        t = { s with v := t.v, pc := t.pc }) ∧
    (decodeWord (orXY 0x800E#16 x y) = .shiftLeft x y ∧
      ∃ t, exec (.shiftLeft x y) s = .next t ∧
        (x ≠ 0xF#4 → (t.readV x).toNat = (s.readV x).toNat * 2 % 256) ∧
        (t.readV 0xF#4).toNat = (s.readV x).toNat / 128 ∧
        (∀ k, k ≠ x → k ≠ 0xF#4 → t.readV k = s.readV k) ∧ t.pc = s.pc + 2#16 ∧
        t = { s with v := t.v, pc := t.pc })

/-- R133 `RandomAnd(x, kk)`: for every value of the draw (the free value of log 2, whose count of draws is the model's own
field), `V[x]` is that byte masked, so a bit that is 0 in `kk` is 0 afterwards. -/
def Obligations.RandomAndMasksTheDraw : Prop :=
  ∀ (x : Nibble) (kk : Byte) (s : State), decodeWord (orXKK 0xC000#16 x kk) = .randomAnd x kk ∧
    ∃ t, exec (.randomAnd x kk) s = .next t ∧ t.readV x = Config.randByte s.draws &&& kk ∧
      (∀ j, kk.getLsbD j = false → (t.readV x).getLsbD j = false) ∧ (∀ k, k ≠ x → t.readV k = s.readV k) ∧
      t.pc = s.pc + 2#16 ∧ t = { s with v := t.v, pc := t.pc, draws := s.draws + 1 }

/-! ## Control transfer (41_control_flow.md) -/

/-- R102, R104 `Jump(addr)`, `JumpWithOffset(addr)`: to `addr`, and to `addr + V0`, not reduced. -/
def Obligations.JumpsGoToTheirTarget : Prop :=
  ∀ (addr : Addr) (s : State),
    (decodeWord (orADDR 0x1000#16 addr) = .jump addr ∧
      ∃ t, exec (.jump addr) s = .next t ∧ t.pc.toNat = addr.toNat ∧ t = { s with pc := t.pc }) ∧
    (decodeWord (orADDR 0xB000#16 addr) = .jumpWithOffset addr ∧
      ∃ t, exec (.jumpWithOffset addr) s = .next t ∧ t.pc.toNat = addr.toNat + (s.readV 0x0#4).toNat ∧
        t.pc.toNat ≤ 0x10FE ∧ t = { s with pc := t.pc })

/-- R103 `CallSubroutine(addr)`: pushes the address of the call itself; halts with `STACK_OVERFLOW`, changing nothing
else, when 16 entries are valid. -/
def Obligations.CallPushesItsOwnAddress : Prop :=
  ∀ (addr : Addr) (s : State), decodeWord (orADDR 0x2000#16 addr) = .callSubroutine addr ∧
    (∀ h : s.sp.val < 16, ∃ t, exec (.callSubroutine addr) s = .next t ∧ t.stack[s.sp.val] = s.pc ∧
      (∀ j : Fin 16, j.val ≠ s.sp.val → t.stack[j.val] = s.stack[j.val]) ∧ t.sp.val = s.sp.val + 1 ∧
      t.pc.toNat = addr.toNat ∧ t = { s with stack := t.stack, sp := t.sp, pc := t.pc }) ∧
    (s.sp.val = 16 →
      exec (.callSubroutine addr) s = .next { s with running := false, haltReason := .stackOverflow })

/-- R101 `ReturnFromSubroutine`: to the newest entry plus 2; halts with `STACK_UNDERFLOW`, changing nothing else, when the
stack is empty. -/
def Obligations.ReturnGoesPastTheCall : Prop :=
  ∀ s : State, decodeWord 0x00EE#16 = .returnFromSubroutine ∧
    (∀ h : 0 < s.sp.val, ∃ t, exec .returnFromSubroutine s = .next t ∧ t.sp.val = s.sp.val - 1 ∧
      t.pc = s.stack[s.sp.val - 1] + 2#16 ∧ t = { s with sp := t.sp, pc := t.pc }) ∧
    (s.sp.val = 0 →
      exec .returnFromSubroutine s = .next { s with running := false, haltReason := .stackUnderflow })

/-- R105, R106 `SkipIfEqual`, `SkipIfNotEqual`. -/
def Obligations.ImmediateSkips : Prop :=
  ∀ (x : Nibble) (kk : Byte) (s : State),
    decodeWord (orXKK 0x3000#16 x kk) = .skipIfEqual x kk ∧
    exec (.skipIfEqual x kk) s = .next { s with pc := if s.readV x = kk then s.pc + 4#16 else s.pc + 2#16 } ∧
    decodeWord (orXKK 0x4000#16 x kk) = .skipIfNotEqual x kk ∧
    exec (.skipIfNotEqual x kk) s = .next { s with pc := if s.readV x ≠ kk then s.pc + 4#16 else s.pc + 2#16 }

/-- R107, R108 `SkipIfRegistersEqual`, `SkipIfRegistersNotEqual`; a non-zero low nibble is unknown. -/
def Obligations.RegisterSkips : Prop :=
  ∀ (x y : Nibble) (s : State),
    (decodeWord (orXY 0x5000#16 x y) = .skipIfRegistersEqual x y ∧
      exec (.skipIfRegistersEqual x y) s =
        .next { s with pc := if s.readV x = s.readV y then s.pc + 4#16 else s.pc + 2#16 }) ∧
    (decodeWord (orXY 0x9000#16 x y) = .skipIfRegistersNotEqual x y ∧
      exec (.skipIfRegistersNotEqual x y) s =
        .next { s with pc := if s.readV x ≠ s.readV y then s.pc + 4#16 else s.pc + 2#16 }) ∧
    (∀ n : Nibble, n ≠ 0x0#4 → decodeWord (orXYN 0x5000#16 x y n) = .unknown (orXYN 0x5000#16 x y n) ∧
      decodeWord (orXYN 0x9000#16 x y n) = .unknown (orXYN 0x9000#16 x y n))

/-- 40_execution_cycle.md R90, the unknown outcome: a report of the address and the word, `PC + 2`, nothing else; `running`
stays 1. At the level of clock edges the report lasts one period: an edge that executes no instruction ends it. -/
def Obligations.UnknownIsReportedAndSkipped : Prop :=
  (∀ (w : Word) (s : State),
    exec (.unknown w) s = .next { s with pc := s.pc + 2#16, report := some ⟨s.pc, w⟩ }) ∧
  (∀ (w : Word) (s : State), s.running = true → s.fetch = some w → isUnknownWord w = true →
    ∃ t, instrStep s = .next t ∧ t.unkValid = true ∧ t.unkPC = some s.pc ∧ t.unkWord = some w ∧
      t.pc = s.pc + 2#16 ∧ t.running = true ∧ t = { s with pc := t.pc, report := t.report }) ∧
  (∀ (s : State) (p : Inputs) (rest : List Inputs), s.pending = p :: rest → p.step = false →
    ∃ t, step s = .next t ∧ t.unkValid = false)

/-! ## Index register and memory (43_index_memory.md) -/

/-- R141 `SetIndexRegister(addr)`. -/
def Obligations.SetIndexRegisterWritesAddr : Prop :=
  ∀ (addr : Addr) (s : State), decodeWord (orADDR 0xA000#16 addr) = .setIndexRegister addr ∧
    ∃ t, exec (.setIndexRegister addr) s = .next t ∧ t.i.toNat = addr.toNat ∧ t.pc = s.pc + 2#16 ∧
      t = { s with i := t.i, pc := t.pc }

/-- R142 `AddToIndex(x)`: kept to 16 bits; `VF` is not written. -/
def Obligations.AddToIndexKeepsSixteenBits : Prop :=
  ∀ (x : Nibble) (s : State), decodeWord (orX 0xF01E#16 x) = .addToIndex x ∧
    ∃ t, exec (.addToIndex x) s = .next t ∧ t.i.toNat = (s.i.toNat + (s.readV x).toNat) % 65536 ∧
      t.pc = s.pc + 2#16 ∧ t = { s with i := t.i, pc := t.pc }

/-- R143 `SetIndexToGlyph(x)`: the low nibble selects the glyph; no memory is read. -/
def Obligations.SetIndexToGlyphPointsIntoFont : Prop :=
  ∀ (x : Nibble) (s : State), decodeWord (orX 0xF029#16 x) = .setIndexToGlyph x ∧
    ∃ t, exec (.setIndexToGlyph x) s = .next t ∧ t.i.toNat = 0x0050 + 5 * ((s.readV x).toNat % 16) ∧
      t.pc = s.pc + 2#16 ∧ t = { s with i := t.i, pc := t.pc }

/-- R144 `StoreBcd(x)`: three digits, or the halt with no byte written. -/
def Obligations.StoreBcdWritesThreeDigits : Prop :=
  ∀ (x : Nibble) (s : State), decodeWord (orX 0xF033#16 x) = .storeBcd x ∧
    (s.i.toNat + 2 ≤ 4095 → ∃ t, exec (.storeBcd x) s = .next t ∧
      (t.mem.read s.i.toNat).toNat = (s.readV x).toNat / 100 ∧
      (t.mem.read (s.i.toNat + 1)).toNat = (s.readV x).toNat / 10 % 10 ∧
      (t.mem.read (s.i.toNat + 2)).toNat = (s.readV x).toNat % 10 ∧
      (∀ a, a < s.i.toNat ∨ s.i.toNat + 3 ≤ a → t.mem.read a = s.mem.read a) ∧
      t.pc = s.pc + 2#16 ∧ t = { s with mem := t.mem, pc := t.pc }) ∧
    (s.i.toNat + 2 > 4095 →
      exec (.storeBcd x) s = .next { s with running := false, haltReason := .memOutOfBounds })

/-- R145 `StoreRegisters(x)`: `V0` to `Vx` at `I` to `I + x`, `I` unchanged, or the halt with no byte written. -/
def Obligations.StoreRegistersWritesTheRange : Prop :=
  ∀ (x : Nibble) (s : State), decodeWord (orX 0xF055#16 x) = .storeRegisters x ∧
    (s.i.toNat + x.toNat ≤ 4095 → ∃ t, exec (.storeRegisters x) s = .next t ∧
      (∀ k : Nibble, k.toNat ≤ x.toNat → t.mem.read (s.i.toNat + k.toNat) = s.readV k) ∧
      (∀ a, a < s.i.toNat ∨ s.i.toNat + x.toNat + 1 ≤ a → t.mem.read a = s.mem.read a) ∧
      t.pc = s.pc + 2#16 ∧ t = { s with mem := t.mem, pc := t.pc }) ∧
    (s.i.toNat + x.toNat > 4095 →
      exec (.storeRegisters x) s = .next { s with running := false, haltReason := .memOutOfBounds })

/-- R146 `LoadRegisters(x)`: `V0` to `Vx` from `I` to `I + x`, `I` and the registers above `x` unchanged, or the halt with
no register written. -/
def Obligations.LoadRegistersReadsTheRange : Prop :=
  ∀ (x : Nibble) (s : State), decodeWord (orX 0xF065#16 x) = .loadRegisters x ∧
    (s.i.toNat + x.toNat ≤ 4095 → ∃ t, exec (.loadRegisters x) s = .next t ∧
      (∀ k : Nibble, k.toNat ≤ x.toNat → t.readV k = s.mem.read (s.i.toNat + k.toNat)) ∧
      (∀ k : Nibble, x.toNat < k.toNat → t.readV k = s.readV k) ∧
      t.pc = s.pc + 2#16 ∧ t = { s with v := t.v, pc := t.pc }) ∧
    (s.i.toNat + x.toNat > 4095 →
      exec (.loadRegisters x) s = .next { s with running := false, haltReason := .memOutOfBounds })

/-! ## Display (44_display.md) -/

/-- R161 `ClearScreen`: every pixel off, and the `fb_changed` pulse. -/
def Obligations.ClearScreenTurnsEveryPixelOff : Prop :=
  ∀ s : State, decodeWord 0x00E0#16 = .clearScreen ∧
    ∃ t, exec .clearScreen s = .next t ∧ (∀ r c, t.fb.pixel r c = false) ∧ t.fbChanged = true ∧
      t.pc = s.pc + 2#16 ∧ t = { s with fb := t.fb, fbChanged := t.fbChanged, pc := t.pc }

/-- R162 `Draw(x, y, n)`: exactly the pixels under the sprite's 1-bits are turned over, each wrapped separately; `VF` is 1
exactly when one of them was on; with `n > 0` and a row outside memory it halts, changing nothing else. -/
def Obligations.DrawTogglesExactlyTheSprite : Prop :=
  ∀ (x y n : Nibble) (s : State), decodeWord (orXYN 0xD000#16 x y n) = .draw x y n ∧
    (n.toNat = 0 ∨ s.i.toNat + n.toNat - 1 ≤ 4095 → ∃ t, exec (.draw x y n) s = .next t ∧
      (∀ r c, spriteCovers s x y n r c → t.fb.pixel r c = !s.fb.pixel r c) ∧
      (∀ r c, ¬ spriteCovers s x y n r c → t.fb.pixel r c = s.fb.pixel r c) ∧
      ((∃ r c, spriteCovers s x y n r c ∧ s.fb.pixel r c = true) → t.readV 0xF#4 = 1#8) ∧
      ((∀ r c, spriteCovers s x y n r c → s.fb.pixel r c = false) → t.readV 0xF#4 = 0#8) ∧
      (∀ k, k ≠ 0xF#4 → t.readV k = s.readV k) ∧ t.fbChanged = true ∧ t.pc = s.pc + 2#16 ∧
      t = { s with fb := t.fb, v := t.v, fbChanged := t.fbChanged, pc := t.pc }) ∧
    (0 < n.toNat ∧ s.i.toNat + n.toNat - 1 > 4095 →
      exec (.draw x y n) s = .next { s with running := false, haltReason := .memOutOfBounds })

/-- The source's round-trip property, as R162 states it: a second identical draw, its coordinates not overwritten by the
flag, restores the framebuffer; and its flag is 1 if any pixel under the sprite was off before the first. -/
def Obligations.DrawTwiceRestoresTheFrame : Prop :=
  ∀ (x y n : Nibble) (s : State), x ≠ 0xF#4 → y ≠ 0xF#4 → n.toNat = 0 ∨ s.i.toNat + n.toNat - 1 ≤ 4095 →
    ∃ t u, exec (.draw x y n) s = .next t ∧ exec (.draw x y n) t = .next u ∧ u.fb = s.fb ∧
      ((∃ r c, spriteCovers s x y n r c ∧ s.fb.pixel r c = false) → u.readV 0xF#4 = 1#8)

/-! ## Timers and keypad (45_timers_keypad.md) -/

/-- R170, R171, R172 `LoadDelayTimer`, `SetDelayTimer`, `SetSoundTimer`; `sound_on` follows `ST` at once. -/
def Obligations.TimerRegistersMove : Prop :=
  ∀ (x : Nibble) (s : State),
    (decodeWord (orX 0xF007#16 x) = .loadDelayTimer x ∧
      ∃ t, exec (.loadDelayTimer x) s = .next t ∧ t.readV x = s.dt ∧ (∀ k, k ≠ x → t.readV k = s.readV k) ∧
        t.pc = s.pc + 2#16 ∧ t = { s with v := t.v, pc := t.pc }) ∧
    (decodeWord (orX 0xF015#16 x) = .setDelayTimer x ∧
      exec (.setDelayTimer x) s = .next { s with dt := s.readV x, pc := s.pc + 2#16 }) ∧
    (decodeWord (orX 0xF018#16 x) = .setSoundTimer x ∧
      ∃ t, exec (.setSoundTimer x) s = .next t ∧ t = { s with st := s.readV x, pc := s.pc + 2#16 } ∧
        (t.soundOn = true ↔ s.readV x ≠ 0#8))

/-- R173 `WaitForKey(x)`: with no key pressed nothing is written, `PC` included; otherwise the smallest pressed key goes to
`V[x]`. -/
def Obligations.WaitForKeyTakesTheLowest : Prop :=
  ∀ (x : Nibble) (s : State), decodeWord (orX 0xF00A#16 x) = .waitForKey x ∧
    ((∀ k : Nibble, s.keys.getLsbD k.toNat = false) → exec (.waitForKey x) s = .next s) ∧
    (∀ k : Nibble, s.keys.getLsbD k.toNat = true → (∀ j : Nibble, j.toNat < k.toNat → s.keys.getLsbD j.toNat = false) →
      ∃ t, exec (.waitForKey x) s = .next t ∧ (t.readV x).toNat = k.toNat ∧ (∀ k, k ≠ x → t.readV k = s.readV k) ∧
        t.pc = s.pc + 2#16 ∧ t = { s with v := t.v, pc := t.pc })

/-- R174, R175 `SkipIfKeyPressed`, `SkipIfKeyNotPressed`: the low nibble of `V[x]` selects the key. -/
def Obligations.KeySkips : Prop :=
  ∀ (x : Nibble) (s : State),
    (decodeWord (orX 0xE09E#16 x) = .skipIfKeyPressed x ∧
      exec (.skipIfKeyPressed x) s =
        .next { s with pc := if s.keys.getLsbD ((s.readV x).toNat % 16) = true then s.pc + 4#16 else s.pc + 2#16 }) ∧
    (decodeWord (orX 0xE0A1#16 x) = .skipIfKeyNotPressed x ∧
      exec (.skipIfKeyNotPressed x) s =
        .next { s with pc := if s.keys.getLsbD ((s.readV x).toNat % 16) = false then s.pc + 4#16 else s.pc + 2#16 })

/-! ## Frames: what each operation leaves unchanged, over all operations -/

/-- 10_state.md R11: an operation writes no general register it does not name, but `VF` where it sets the flag. -/
def Obligations.RegistersOutsideTheDestinationKept : Prop :=
  ∀ (i : Instr) (s t : State), exec i s = .next t → ∀ k, mayWriteV i k = false → t.readV k = s.readV k

/-- 20_memory.md R40, R47: only `StoreBcd` and `StoreRegisters` write memory, 3 and `x + 1` bytes from `I` on; every
address outside those bytes reads as before. -/
def Obligations.MemoryOutsideTheStoreKept : Prop :=
  ∀ (i : Instr) (s t : State), exec i s = .next t →
    ∀ a, a < s.base ∨ s.base + storedCount i ≤ a → t.mem.read a = s.mem.read a

/-- 10_state.md R16: only `CallSubroutine` pushes and only `ReturnFromSubroutine` pops. -/
def Obligations.StackChangedByCallAndReturnOnly : Prop :=
  ∀ (i : Instr) (s t : State), exec i s = .next t →
    ((∀ a, i ≠ .callSubroutine a) → t.stack = s.stack) ∧
    ((∀ a, i ≠ .callSubroutine a) → i ≠ .returnFromSubroutine → t.sp = s.sp)

/-- 10_state.md R18, R28: only `ClearScreen` and `Draw` write the framebuffer or raise `fb_changed`. -/
def Obligations.FrameWrittenByDisplayOnly : Prop :=
  ∀ (i : Instr) (s t : State), exec i s = .next t → ¬ writesFrame i → t.fb = s.fb ∧ t.fbChanged = s.fbChanged

/-- 10_state.md R13, R19: `I` is written by `SetIndexRegister`, `AddToIndex` and `SetIndexToGlyph` only, `DT` by
`SetDelayTimer` and `ST` by `SetSoundTimer` only: no instruction counts a timer down. -/
def Obligations.IndexAndTimersWrittenByTheirOwnOnly : Prop :=
  ∀ (i : Instr) (s t : State), exec i s = .next t →
    (¬ writesIndex i → t.i = s.i) ∧ ((∀ x, i ≠ .setDelayTimer x) → t.dt = s.dt) ∧
    ((∀ x, i ≠ .setSoundTimer x) → t.st = s.st)

/-- 60_exceptions.md R191, R192, R193: an operation changes `running` or `halt_reason` only by a fatal halt of the cause
and condition of R191's table, and then changes nothing else. -/
def Obligations.HaltsArePreciseAndOnlyForTheirCause : Prop :=
  ∀ (i : Instr) (s t : State), exec i s = .next t →
    (t.running = s.running ∧ t.haltReason = s.haltReason) ∨
    (t = { s with running := false, haltReason := .stackOverflow } ∧ (∃ a, i = .callSubroutine a) ∧ s.sp.val = 16) ∨
    (t = { s with running := false, haltReason := .stackUnderflow } ∧ i = .returnFromSubroutine ∧ s.sp.val = 0) ∨
    (t = { s with running := false, haltReason := .memOutOfBounds } ∧
      ((∃ x y n, i = .draw x y n ∧ 0 < n.toNat ∧ s.i.toNat + n.toNat - 1 > 4095) ∨
        (∃ x, i = .storeBcd x ∧ s.i.toNat + 2 > 4095) ∨
        (∃ x, (i = .storeRegisters x ∨ i = .loadRegisters x) ∧ s.i.toNat + x.toNat > 4095)))

/-- 10_state.md R24, R26, 40_execution_cycle.md R90: what the host drives is no state an operation changes; the report is
made by an unknown word only; a byte is drawn by `RandomAnd` only. The places `keys`, `pending` and `draws` are the model's
own (logs 1, 2, 3). -/
def Obligations.InputsAndReportKept : Prop :=
  ∀ (i : Instr) (s t : State), exec i s = .next t →
    t.keys = s.keys ∧ t.pending = s.pending ∧ ((∀ w, i ≠ .unknown w) → t.report = s.report) ∧
    ((∀ x kk, i ≠ .randomAnd x kk) → t.draws = s.draws)

/-- 40_execution_cycle.md section 3, the spec's own inference "`keys` matters only to `SkipIfKeyPressed`,
`SkipIfKeyNotPressed` and `WaitForKey`": with another keypad every other operation does the same. -/
def Obligations.KeypadMattersToThreeOnly : Prop :=
  ∀ (i : Instr) (s : State) (k : BitVec 16), ¬ readsKeys i →
    exec i { s with keys := k } = mapNext (fun t => { t with keys := k }) (exec i s)

/-- 10_state.md R19: no instruction reads `ST`: whatever `ST` holds, every operation does the same to the rest. -/
def Obligations.SoundTimerNeverRead : Prop :=
  ∀ (i : Instr) (s : State) (b : Byte), (∀ x, i ≠ .setSoundTimer x) →
    exec i { s with st := b } = mapNext (fun t => { t with st := b }) (exec i s)

/-- 10_state.md R16: no instruction reads a stack entry at or above `SP`: whatever those entries hold, every operation
leaves the same `V`, `PC`, `I`, `SP`, memory, framebuffer and halt. -/
def Obligations.StaleStackEntriesNeverRead : Prop :=
  ∀ (i : Instr) (s s' t t' : State), (∀ j : Fin 16, j.val < s.sp.val → s'.stack[j.val] = s.stack[j.val]) →
    s' = { s with stack := s'.stack } → exec i s = .next t → exec i s' = .next t' →
    t' = { t with stack := t'.stack } ∧ (∀ j : Fin 16, j.val < t.sp.val → t'.stack[j.val] = t.stack[j.val])

/-! ## Memory (20_memory.md) -/

/-- 20_memory.md section 2, the spec's own inference "memory is plain storage": a write is read back and leaves every other
address alone; and it keeps the canonical form, which is the model's (log 9). -/
def Obligations.MemoryWriteThenRead : Prop :=
  ∀ (m : Memory) (a b : Nat) (v : Byte),
    (m.write a v).read a = v ∧ (b ≠ a → (m.write a v).read b = m.read b) ∧
    (m.wf → a < 4096 → (m.write a v).wf)

/-- R44 `MemRead`, R45 `MemWrite`: the whole range or nothing. -/
def Obligations.TransfersAreAllOrNothing : Prop :=
  ∀ (s : State) (addr n : Nat) (bs : List Byte), 1 ≤ n → 1 ≤ bs.length →
    (addr + n - 1 > 4095 → s.memRead addr n = none) ∧
    (addr + n - 1 ≤ 4095 → ∃ r, s.memRead addr n = some r ∧ r.length = n ∧
      ∀ j (h : j < r.length), r[j] = s.mem.read (addr + j)) ∧
    (addr + bs.length - 1 > 4095 → s.memWrite addr bs = none) ∧
    (addr + bs.length - 1 ≤ 4095 → ∃ t, s.memWrite addr bs = some t ∧
      (∀ j (h : j < bs.length), t.mem.read (addr + j) = bs[j]) ∧
      (∀ a, a < addr ∨ addr + bs.length ≤ a → t.mem.read a = s.mem.read a) ∧ t = { s with mem := t.mem })

/-- 20_memory.md section 3, the spec's own inference "a byte written by `StoreBcd` or `StoreRegisters` in one step is what
a fetch in the next step reads at that address"; the lower address is the high half of the word. -/
def Obligations.StoredBytesAreFetched : Prop :=
  ∀ (x k : Nibble) (s t : State), exec (.storeRegisters x) s = .next t → s.i.toNat + x.toNat ≤ 4095 →
    k.toNat + 1 ≤ x.toNat → t.pc.toNat = s.i.toNat + k.toNat →
    ∃ w, t.fetch = some w ∧ w.toNat = (s.readV k).toNat * 256 + (s.readV (k + 1#4)).toNat

/-! ## The cycle (40_execution_cycle.md) -/

/-- R82 to R86: while running, when the bytes at `PC` decode to `i`, an instruction step is `exec i`; and a clock edge at
which the host asserts `step` alone is that instruction step, after the inputs of the edge are taken and the one-period
outputs of the edge before are over (what an edge with no input listed drives is the model's choice, log 1). -/
def Obligations.StepRunsTheDecodedInstruction : Prop :=
  ∀ (s : State) (i : Instr), s.running = true → s.pc.toNat + 1 ≤ 4095 →
    decode [s.mem.read s.pc.toNat, s.mem.read (s.pc.toNat + 1)] = .ok (i, []) →
    wellFormed i = true ∧ instrStep s = exec i s ∧
    (s.pending = [] → step s = exec i { s with fbChanged := false, report := none }) ∧
    (∀ k rest, s.pending = { step := true, keys := k } :: rest →
      step s = exec i { s with pending := rest, keys := k, fbChanged := false, report := none })

/-- R84: a fetch that would pass the end of memory halts with `PC_OUT_OF_BOUNDS`, and nothing else changes; every other
fetch passes, that from 0x0FFE too. -/
def Obligations.FetchOutOfBoundsHalts : Prop :=
  ∀ s : State, s.running = true →
    (s.pc.toNat + 1 > 4095 → instrStep s = .next { s with running := false, haltReason := .pcOutOfBounds }) ∧
    (s.pc.toNat + 1 ≤ 4095 → ∃ w, s.fetch = some w ∧
      w.toNat = (s.mem.read s.pc.toNat).toNat * 256 + (s.mem.read (s.pc.toNat + 1)).toNat ∧
      instrStep s = exec (decodeWord w) s)

/-- R80 and 60_exceptions.md R194: while halted a `Step` changes nothing; timer ticks and loads still act. -/
def Obligations.HaltedCoreDoesNotStep : Prop :=
  ∀ (s : State) (a : Addr) (b : Byte), s.running = false →
    applyEvent .step s = .next s ∧
    applyEvent .timerTick s = .next { s with dt := countDown s.dt, st := countDown s.st } ∧
    applyEvent (.load a b) s = .next { s with mem := s.mem.write a.toNat b }

/-- R82, R86, 93_implementation_defined.md Part A: every clock edge, from every state, has a next state: no fault and no
refusal. -/
def Obligations.EveryEdgeAnswersANextState : Prop := ∀ s : State, ∃ t, step s = .next t

/-- 40_execution_cycle.md section 1 (R89) and 60_exceptions.md section 2 (R195, the spec's own inference "a `Stop` at the
same edge as a `Step` halts with `STOP` before the step"): no instruction executes, and a tick of the same edge still acts.
That the edges stand in a list of the state, and that the outputs of the edge before end first, is the model's form (logs 1,
10). -/
def Obligations.StopWinsOverStep : Prop :=
  ∀ (s : State) (p : Inputs) (rest : List Inputs), s.running = true → s.pending = p :: rest → p.rst = false →
    p.stopReq = true →
    step s = .next { s with
      pending := rest, keys := p.keys, running := false, haltReason := .stop, fbChanged := false, report := none,
      dt := if p.timerTick = true then countDown s.dt else s.dt,
      st := if p.timerTick = true then countDown s.st else s.st }

/-- R89: the inputs of one clock edge act in the fixed order: `rst` alone; otherwise, with the edge's own `keys`, the load,
the start, the stop, the step, the tick, each on the state the one before it left. That the edges stand in a list of the state,
and that the outputs of the edge before end first, is the model's form (logs 1, 10). -/
def Obligations.EdgeInputsActInOrder : Prop :=
  ∀ (s : State) (p : Inputs) (rest : List Inputs), s.pending = p :: rest →
    (p.rst = true →
      step s = .next (State.resetEvent { s with pending := rest, fbChanged := false, report := none })) ∧
    (p.rst = false → ∀ s0 s1 s2 s3 : State,
      s0 = { s with pending := rest, keys := p.keys, fbChanged := false, report := none } →
      s1 = (if p.ldWe = true then s0.load p.ldAddr p.ldData else s0) →
      s2 = (if p.start = true then s1.start else s1) →
      s3 = (if p.stopReq = true then s2.stop else s2) →
      step s = mapNext (fun t => if p.timerTick = true then t.timerTick else t)
        (if p.step = true then instrStep s3 else .next s3))

/-- R220, 10_state.md R30, with R89: `Reset`, in any state and whatever else the edge asserts, leaves every piece of the
machine's state at its reset value. That the edges stand in a list of the state is the model's form (log 1). -/
def Obligations.ResetLeavesTheResetState : Prop :=
  ∀ (s : State) (p : Inputs) (rest : List Inputs), s.pending = p :: rest → p.rst = true →
    ∃ t, step s = .next t ∧ (∀ k, t.readV k = 0#8) ∧ t.i = 0#16 ∧ t.pc = 0x0200#16 ∧ t.sp.val = 0 ∧
      (∀ j : Fin 16, t.stack[j.val] = 0#16) ∧ (∀ a, t.mem.read a = 0#8) ∧ (∀ r c, t.fb.pixel r c = false) ∧
      t.dt = 0#8 ∧ t.st = 0#8 ∧ t.running = false ∧ t.haltReason = .none

/-- 60_exceptions.md R206, R207: one tick, running or halted. -/
def Obligations.TimerTickCountsBothDown : Prop :=
  ∀ s : State, ∃ t, applyEvent .timerTick s = .next t ∧ t.dt.toNat = s.dt.toNat - 1 ∧ t.st.toNat = s.st.toNat - 1 ∧
    t = { s with dt := t.dt, st := t.st }

/-- 10_state.md R27: the loader port writes one byte while halted and is ignored while running. -/
def Obligations.LoaderWritesOnlyWhileHalted : Prop :=
  ∀ (s : State) (a : Addr) (b : Byte),
    (s.running = true → applyEvent (.load a b) s = .next s) ∧
    (s.running = false → ∃ t, applyEvent (.load a b) s = .next t ∧ t.mem.read a.toNat = b ∧
      (∀ c, c ≠ a.toNat → t.mem.read c = s.mem.read c) ∧ t = { s with mem := t.mem })

/-- The conditions and effects of `Start`, from the rows of 40_execution_cycle.md section 1 (R81) and 60_exceptions.md
section 2 (R198), and of `Stop`, from 60_exceptions.md section 2 (R196). -/
def Obligations.StartAndStopEvents : Prop :=
  ∀ s : State,
    (s.running = false ∧ (s.haltReason = .none ∨ s.haltReason = .stop) →
      applyEvent .start s = .next { s with running := true, haltReason := .none }) ∧
    (s.running = true ∨ s.haltReason.fatal = true → applyEvent .start s = .next s) ∧
    (s.running = true → applyEvent .stop s = .next { s with running := false, haltReason := .stop }) ∧
    (s.running = false → applyEvent .stop s = .next s)

/-- 60_exceptions.md R198: a fatal halt is left only by `Reset`: no other sequence of events changes `running`,
`halt_reason`, `PC`, a register, `I`, the stack or the framebuffer. -/
def Obligations.FatalHaltLeftOnlyByReset : Prop :=
  ∀ (es : List Event) (s : State), Event.reset ∉ es → s.running = false → s.haltReason.fatal = true →
    ∃ t, runEvents es s = .next t ∧ t = { s with mem := t.mem, dt := t.dt, st := t.st, keys := t.keys }

/-- 10_state.md section 4 (R28, R29) and 40_execution_cycle.md section 2 (R90): after an edge with no input listed,
`fb_changed` is 1 exactly when the instruction of that edge was a display operation that did not halt, and `unk_valid`
exactly when its word was unknown, with its address and word. That such an edge asserts `step` alone is the model's choice
(log 1); that a `Draw` that halts raises no `fb_changed` is the model's deduction from 60_exceptions.md section 2 (R193), log
10. -/
def Obligations.PulsesTellTheLatestEdge : Prop :=
  ∀ (s t : State) (w : Word), s.running = true → s.pending = [] → s.fetch = some w → step s = .next t →
    (t.fbChanged = true ↔ writesFrame (decodeWord w) ∧ t.running = true) ∧
    (t.unkValid = true ↔ isUnknownWord w = true) ∧
    (isUnknownWord w = true → t.unkWord = some w ∧ t.unkPC = some s.pc)

/-- The same for an edge the host lists, with `step` and without `rst` and `stop_req`, whatever else it asserts (a load or a
start does nothing to a running core, a tick only counts the timers). That the edges stand in a list is the model's form (log
1); that a `Draw` that halts raises no `fb_changed` is the model's deduction from 60_exceptions.md section 2 (R193), log
10. -/
def Obligations.PulsesTellAListedStep : Prop :=
  ∀ (s t : State) (w : Word) (p : Inputs) (rest : List Inputs), s.running = true → s.pending = p :: rest →
    p.rst = false → p.stopReq = false → p.step = true → s.fetch = some w → step s = .next t →
    (t.fbChanged = true ↔ writesFrame (decodeWord w) ∧ t.running = true) ∧
    (t.unkValid = true ↔ isUnknownWord w = true) ∧
    (isUnknownWord w = true → t.unkWord = some w ∧ t.unkPC = some s.pc)

/-- R101, R103 and C1: calling, then returning at once, comes to the instruction after the call with the stack at its depth
before. -/
def Obligations.CallThenReturnComesBack : Prop :=
  ∀ (addr : Addr) (s : State), s.sp.val < 16 →
    ∃ t u, exec (.callSubroutine addr) s = .next t ∧ exec .returnFromSubroutine t = .next u ∧
      u.pc = s.pc + 2#16 ∧ u.sp = s.sp ∧ u.v = s.v ∧ u.mem = s.mem ∧ u.i = s.i

/-- 70_reset_and_hazards.md section 5, the spec's own inference "the launch state is the state after the boot sequence": for
any ROM bytes that fit, from any state, it is running from 0x0200, everything else at its reset value, the bytes from 0x0200
on. That the fields the model adds (`keys`, `pending`, `draws`) go on is its choice (logs 1 to 4). -/
def Obligations.BootLeavesTheLaunchState : Prop :=
  ∀ (rom : List Byte) (s : State), rom.length ≤ 3584 →
    ∃ t, runEvents (bootEvents rom []) s = .next t ∧
      (∀ j (h : j < rom.length), t.mem.read (0x200 + j) = rom[j]) ∧
      (∀ a, a < 0x200 ∨ 0x200 + rom.length ≤ a → t.mem.read a = 0#8) ∧
      t = { State.reset with
        mem := t.mem, running := true, keys := s.keys, pending := s.pending, draws := s.draws }

/-! ## The invariant -/

/-- The invariant holds right after reset. -/
def Obligations.ResetMeetsTheInvariant : Prop := State.reset.Inv

/-- 10_state.md section 5, the spec's own inference "Invariants that hold in every reachable state", with the canonical form
of memory (log 9) and what 60_exceptions.md section 1 says identifies a halt: every clock edge, whatever the host drives at
it, keeps the invariant. -/
def Obligations.EveryEdgeKeepsTheInvariant : Prop := ∀ s t : State, s.Inv → step s = .next t → t.Inv
end

