-- ==== Sys2Proof/Laws/Memory.lean ====
section
/-! SUPPORT. Memory: read after write, and the canonical form kept by every operation (20_memory.md R44 to R48). -/

namespace Sys2Proof.Machine

/-! ## Reading -/

theorem Memory.read_filter_ne (m : Memory) (a b : Nat) (h : b ≠ a) :
    Memory.read (m.filter (fun c => c.1 ≠ a)) b = Memory.read m b := by
  induction m with
  | nil => rfl
  | cons c m ih =>
    by_cases hc : c.1 = a
    · have hb : c.1 ≠ b := fun e => h (e.symm.trans hc)
      have hf : List.filter (fun c => decide (c.1 ≠ a)) (c :: m) = List.filter (fun c => decide (c.1 ≠ a)) m := by
        simp [hc]
      rw [hf, ih]
      simp [Memory.read, hb]
    · have hf : List.filter (fun c => decide (c.1 ≠ a)) (c :: m) = c :: List.filter (fun c => decide (c.1 ≠ a)) m := by
        simp [hc]
      rw [hf]
      simp only [Memory.read, ih]

theorem Memory.read_absent (m : Memory) (a : Nat) (h : ∀ c ∈ m, c.1 ≠ a) : Memory.read m a = 0#8 := by
  induction m with
  | nil => rfl
  | cons c m ih =>
    have hc : c.1 ≠ a := h c (by simp)
    simp [Memory.read, hc, ih (fun d hd => h d (by simp [hd]))]

theorem Memory.read_insert (m : Memory) (a b : Nat) (v : Byte) (h : ∀ c ∈ m, c.1 ≠ a) :
    Memory.read (Memory.insert m a v) b = if b = a then v else Memory.read m b := by
  induction m with
  | nil => simp [Memory.insert, Memory.read, eq_comm (a := a)]
  | cons c m ih =>
    have hc : c.1 ≠ a := h c (by simp)
    have ih' := ih (fun d hd => h d (by simp [hd]))
    unfold Memory.insert
    by_cases hlt : a < c.1
    · by_cases hb : b = a
      · simp [hlt, Memory.read, hb]
      · simp [hlt, Memory.read, hb, Ne.symm hb]
    · by_cases hb : b = a
      · simp [hlt, Memory.read, hb, hc] at ih' ⊢
        exact ih'
      · simp [hlt, Memory.read, hb] at ih' ⊢
        rw [ih']

theorem Memory.ne_of_mem_filter (m : Memory) (a : Nat) (c : Host.Cell) (h : c ∈ m.filter (fun c => c.1 ≠ a)) :
    c.1 ≠ a := by
  simpa using (List.mem_filter.mp h).2

/-- A write is read back at its own address and leaves every other address alone, in any memory (R48). -/
theorem Memory.read_write (m : Memory) (a b : Nat) (v : Byte) :
    Memory.read (Memory.write m a v) b = if b = a then v else Memory.read m b := by
  unfold Memory.write
  by_cases hv : v = 0#8
  · by_cases hb : b = a
    · simp only [hv, hb, if_true]
      exact Memory.read_absent _ _ (fun c hc => Memory.ne_of_mem_filter m a c hc)
    · simp only [hv, hb, if_true, if_false]
      exact Memory.read_filter_ne m a b hb
  · simp only [hv, if_false]
    rw [Memory.read_insert _ _ _ _ (fun c hc => Memory.ne_of_mem_filter m a c hc)]
    by_cases hb : b = a
    · simp [hb]
    · simp only [hb, if_false]
      exact Memory.read_filter_ne m a b hb

@[simp] theorem Memory.read_write_same (m : Memory) (a : Nat) (v : Byte) : Memory.read (Memory.write m a v) a = v := by
  simp [Memory.read_write]

theorem Memory.read_write_other (m : Memory) (a b : Nat) (v : Byte) (h : b ≠ a) :
    Memory.read (Memory.write m a v) b = Memory.read m b := by
  simp [Memory.read_write, h]

/-! ## The canonical form -/

theorem Memory.mem_insert (m : Memory) (a : Nat) (v : Byte) (c : Host.Cell) :
    c ∈ Memory.insert m a v ↔ c = (a, v) ∨ c ∈ m := by
  induction m with
  | nil => simp [Memory.insert]
  | cons d m ih =>
    unfold Memory.insert
    by_cases hlt : a < d.1
    · simp [hlt]
    · simp only [hlt, if_false, List.mem_cons, ih]
      tauto

theorem Memory.insert_sorted (m : Memory) (a : Nat) (v : Byte) (hs : m.Pairwise (fun c d => c.1 < d.1))
    (h : ∀ c ∈ m, c.1 ≠ a) : (Memory.insert m a v).Pairwise (fun c d => c.1 < d.1) := by
  induction m with
  | nil => simp [Memory.insert]
  | cons c m ih =>
    have hc : c.1 ≠ a := h c (by simp)
    obtain ⟨hlo, hs'⟩ := List.pairwise_cons.mp hs
    unfold Memory.insert
    by_cases hlt : a < c.1
    · simp only [hlt, if_true]
      refine List.pairwise_cons.mpr ⟨?_, hs⟩
      intro d hd
      rcases List.mem_cons.mp hd with e | hd
      · rw [e]; exact hlt
      · exact Nat.lt_trans hlt (hlo d hd)
    · simp only [hlt, if_false]
      refine List.pairwise_cons.mpr ⟨?_, ih hs' (fun d hd => h d (by simp [hd]))⟩
      intro d hd
      rcases (Memory.mem_insert m a v d).mp hd with e | hd
      · rw [e]; show c.1 < a; omega
      · exact hlo d hd

/-- A write inside memory keeps the canonical form. -/
theorem Memory.write_wf (m : Memory) (a : Nat) (v : Byte) (h : m.wf) (ha : a < 4096) : (Memory.write m a v).wf := by
  obtain ⟨hs, hm⟩ := h
  have hfs : (m.filter (fun c => c.1 ≠ a)).Pairwise (fun c d => c.1 < d.1) := hs.filter _
  have hfm : ∀ c ∈ m.filter (fun c => c.1 ≠ a), c.2 ≠ 0#8 ∧ c.1 < 4096 :=
    fun c hc => hm c (List.mem_filter.mp hc).1
  unfold Memory.write
  by_cases hv : v = 0#8
  · simp only [hv, if_true]
    exact ⟨hfs, hfm⟩
  · simp only [hv, if_false]
    refine ⟨Memory.insert_sorted _ a v hfs (fun c hc => Memory.ne_of_mem_filter m a c hc), ?_⟩
    intro c hc
    rcases (Memory.mem_insert _ a v c).mp hc with e | hc
    · rw [e]; exact ⟨hv, ha⟩
    · exact hfm c hc

/-! ## Ranges -/

theorem Memory.writeBytes_wf (bs : List Byte) : ∀ (m : Memory) (a : Nat), m.wf → a + bs.length ≤ 4096 →
    (Memory.writeBytes m a bs).wf := by
  induction bs with
  | nil => intro m a h _; exact h
  | cons b bs ih =>
    intro m a h hl
    simp only [List.length_cons] at hl
    exact ih _ _ (Memory.write_wf m a b h (by omega)) (by omega)

theorem Memory.read_writeBytes_other (bs : List Byte) : ∀ (m : Memory) (a b : Nat), b < a ∨ a + bs.length ≤ b →
    Memory.read (Memory.writeBytes m a bs) b = Memory.read m b := by
  induction bs with
  | nil => intro m a b _; rfl
  | cons v bs ih =>
    intro m a b h
    simp only [List.length_cons] at h
    simp only [Memory.writeBytes]
    rw [ih _ _ _ (by omega), Memory.read_write_other _ _ _ _ (by omega)]

theorem Memory.read_writeBytes_at (bs : List Byte) : ∀ (m : Memory) (a j : Nat) (h : j < bs.length),
    Memory.read (Memory.writeBytes m a bs) (a + j) = bs[j] := by
  induction bs with
  | nil => intro m a j h; simp at h
  | cons v bs ih =>
    intro m a j h
    simp only [Memory.writeBytes]
    cases j with
    | zero =>
      rw [Nat.add_zero, Memory.read_writeBytes_other bs _ _ _ (by omega)]
      simp
    | succ j =>
      have h' : j < bs.length := by simpa using h
      rw [show a + (j + 1) = (a + 1) + j by omega, ih _ _ _ h']
      simp

@[simp] theorem Memory.readBytes_length (m : Memory) (n : Nat) : ∀ a, (Memory.readBytes m a n).length = n := by
  induction n with
  | zero => intro a; rfl
  | succ n ih => intro a; simp [Memory.readBytes, ih]

theorem Memory.readBytes_getElem (m : Memory) (n : Nat) : ∀ (a j : Nat) (h : j < (Memory.readBytes m a n).length),
    (Memory.readBytes m a n)[j] = Memory.read m (a + j) := by
  induction n with
  | zero => intro a j h; simp at h
  | succ n ih =>
    intro a j h
    cases j with
    | zero => simp [Memory.readBytes]
    | succ j =>
      simp only [Memory.readBytes, List.getElem_cons_succ]
      rw [ih, show a + 1 + j = a + (j + 1) by omega]

/-! ## The primitives of R44 and R45 -/

theorem State.memRead_inside (s : State) (a n : Nat) (h : a + n - 1 ≤ 4095) :
    s.memRead a n = some (s.mem.readBytes a n) := if_neg (by omega)

theorem State.memRead_outside (s : State) (a n : Nat) (h : a + n - 1 > 4095) : s.memRead a n = none := if_pos h

theorem State.memWrite_inside (s : State) (a : Nat) (bs : List Byte) (h : a + bs.length - 1 ≤ 4095) :
    s.memWrite a bs = some { s with mem := s.mem.writeBytes a bs } := if_neg (by omega)

theorem State.memWrite_outside (s : State) (a : Nat) (bs : List Byte) (h : a + bs.length - 1 > 4095) :
    s.memWrite a bs = none := if_pos h

/-- Everything `MemWrite` can do (R45). -/
theorem State.memWrite_cases (s : State) (a : Nat) (bs : List Byte) :
    (a + bs.length - 1 > 4095 ∧ s.memWrite a bs = none) ∨
    (a + bs.length - 1 ≤ 4095 ∧ s.memWrite a bs = some { s with mem := s.mem.writeBytes a bs }) := by
  by_cases h : a + bs.length - 1 > 4095
  · exact .inl ⟨h, s.memWrite_outside a bs h⟩
  · exact .inr ⟨by omega, s.memWrite_inside a bs (by omega)⟩

/-- Everything `MemRead` can do (R44). -/
theorem State.memRead_cases (s : State) (a n : Nat) :
    (a + n - 1 > 4095 ∧ s.memRead a n = none) ∨
    (a + n - 1 ≤ 4095 ∧ s.memRead a n = some (s.mem.readBytes a n)) := by
  by_cases h : a + n - 1 > 4095
  · exact .inl ⟨h, s.memRead_outside a n h⟩
  · exact .inr ⟨by omega, s.memRead_inside a n (by omega)⟩

/-! ## The canonical form of the state's memory -/

/-- Right after reset memory is in canonical form. -/
theorem State.reset_mem_wf : State.reset.mem.wf := by decide

/-- `MemWrite` keeps the canonical form. -/
theorem State.memWrite_wf (s t : State) (a : Nat) (bs : List Byte) (hs : s.mem.wf) (h : s.memWrite a bs = some t) :
    t.mem.wf := by
  rcases s.memWrite_cases a bs with ⟨_, e⟩ | ⟨hb, e⟩
  · rw [e] at h; cases h
  · rw [e] at h
    cases h
    exact Memory.writeBytes_wf bs s.mem a hs (by omega)

/-- The loader port keeps the canonical form. -/
theorem State.load_wf (s : State) (a : Addr) (b : Byte) (hs : s.mem.wf) : (s.load a b).mem.wf := by
  unfold State.load
  split
  · exact Memory.write_wf s.mem a.toNat b hs a.isLt
  · exact hs

end Sys2Proof.Machine
end

