-- ==== Sys2Proof/Laws/Display.lean ====
section
/-! SUPPORT. The framebuffer: what turning one pixel over does, which pixels a sprite covers, that no two of its bits fall on
one pixel, and the loop of R162 in closed form (44_display.md). -/

namespace Sys2Proof.Machine

theorem Frame.pixel_off (r : Fin 32) (c : Fin 64) : Frame.off.pixel r c = false := by
  simp [Frame.off, Frame.pixel]

theorem Frame.pixel_toggle (f : Frame) (r r' : Fin 32) (c c' : Fin 64) :
    (f.toggle r c).pixel r' c' = if r' = r ∧ c' = c then !f.pixel r c else f.pixel r' c' := by
  unfold Frame.toggle Frame.pixel
  by_cases hr : r' = r
  · subst hr
    by_cases hc : c' = c
    · subst hc; simp
    · have hn : c.val ≠ c'.val := fun e => hc (Fin.ext e.symm)
      simp [hc, hn]
  · have hn : r.val ≠ r'.val := fun e => hr (Fin.ext e.symm)
    simp [hr, hn]

/-- A frame is its pixels. -/
theorem Frame.ext_pixel (f g : Frame) (h : ∀ r c, f.pixel r c = g.pixel r c) : f = g := by
  apply Vector.ext
  intro r hr
  apply Vector.ext
  intro c hc
  exact h ⟨r, hr⟩ ⟨c, hc⟩

/-- The loop of R162 over distinct pixels turns over exactly those pixels. -/
theorem plot_pixel (ps : List (Fin 32 × Fin 64)) : ∀ (f : Frame) (hit : Bool) (r : Fin 32) (c : Fin 64), ps.Nodup →
    (plot ps f hit).1.pixel r c = if (r, c) ∈ ps then !f.pixel r c else f.pixel r c := by
  induction ps with
  | nil => intro f hit r c _; simp [plot]
  | cons p ps ih =>
    intro f hit r c hn
    obtain ⟨hp, hn'⟩ := List.nodup_cons.mp hn
    simp only [plot]
    rw [ih _ _ _ _ hn', Frame.pixel_toggle]
    by_cases he : (r, c) = p
    · subst he; simp [hp]
    · have hd : ¬ (r = p.1 ∧ c = p.2) := fun h => he (Prod.ext h.1 h.2)
      simp [he, hd]

/-- The collision flag of the loop of R162 over distinct pixels: some pixel was on before. -/
theorem plot_hit (ps : List (Fin 32 × Fin 64)) : ∀ (f : Frame) (hit : Bool), ps.Nodup →
    ((plot ps f hit).2 = true ↔ hit = true ∨ ∃ p ∈ ps, f.pixel p.1 p.2 = true) := by
  induction ps with
  | nil => intro f hit _; simp [plot]
  | cons p ps ih =>
    intro f hit hn
    obtain ⟨hp, hn'⟩ := List.nodup_cons.mp hn
    simp only [plot]
    rw [ih _ _ hn']
    have hsame : ∀ q ∈ ps, (f.toggle p.1 p.2).pixel q.1 q.2 = f.pixel q.1 q.2 := by
      intro q hq
      rw [Frame.pixel_toggle, if_neg]
      rintro ⟨h1, h2⟩
      exact hp ((Prod.ext h1 h2 : q = p) ▸ hq)
    constructor
    · rintro (h | ⟨q, hq, h⟩)
      · rcases Bool.or_eq_true _ _ ▸ h with h | h
        · exact .inl h
        · exact .inr ⟨p, by simp, h⟩
      · exact .inr ⟨q, by simp [hq], (hsame q hq) ▸ h⟩
    · rintro (h | ⟨q, hq, h⟩)
      · exact .inl (by simp [h])
      · rcases List.mem_cons.mp hq with e | hq
        · subst e; exact .inl (by simp [h])
        · exact .inr ⟨q, hq, (hsame q hq).symm ▸ h⟩

theorem mem_rowPixels (r : Fin 32) (c0 : Nat) (byte : Byte) (p : Fin 32 × Fin 64) :
    p ∈ rowPixels r c0 byte ↔ ∃ b, b < 8 ∧ byte.getLsbD (7 - b) = true ∧ p = (r, wrapCol (c0 + b)) := by
  simp only [rowPixels, List.mem_map, List.mem_filter, List.mem_range]
  constructor
  · rintro ⟨b, ⟨hb, hbit⟩, e⟩; exact ⟨b, hb, hbit, e.symm⟩
  · rintro ⟨b, hb, hbit, e⟩; exact ⟨b, ⟨hb, hbit⟩, e.symm⟩

/-- The pixels of a sprite: bit `7 - b` of row `j` at row `(r0 + j) mod 32`, column `(c0 + b) mod 64` (R162). -/
theorem mem_spritePixels (rows : List Byte) : ∀ (r0 c0 : Nat) (p : Fin 32 × Fin 64),
    p ∈ spritePixels r0 c0 rows ↔
      ∃ (j b : Nat) (h : j < rows.length), b < 8 ∧ rows[j].getLsbD (7 - b) = true ∧
        p = (wrapRow (r0 + j), wrapCol (c0 + b)) := by
  induction rows with
  | nil => intro r0 c0 p; simp [spritePixels]
  | cons byte rows ih =>
    intro r0 c0 p
    simp only [spritePixels, List.mem_append, mem_rowPixels, ih]
    constructor
    · rintro (⟨b, hb, hbit, e⟩ | ⟨j, b, hj, hb, hbit, e⟩)
      · exact ⟨0, b, by simp, hb, by simpa using hbit, by simpa using e⟩
      · refine ⟨j + 1, b, by simpa using hj, hb, by simpa using hbit, ?_⟩
        rw [e, show r0 + 1 + j = r0 + (j + 1) by omega]
    · rintro ⟨j, b, hj, hb, hbit, e⟩
      cases j with
      | zero => exact .inl ⟨b, hb, by simpa using hbit, by simpa using e⟩
      | succ j =>
        refine .inr ⟨j, b, by simpa using hj, hb, by simpa using hbit, ?_⟩
        rw [e, show r0 + 1 + j = r0 + (j + 1) by omega]

theorem rowPixels_nodup (r : Fin 32) (c0 : Nat) (byte : Byte) : (rowPixels r c0 byte).Nodup := by
  refine List.Nodup.map_on ?_ ((List.nodup_range (n := 8)).filter _)
  intro a ha b hb e
  have ha' := List.mem_range.mp (List.mem_filter.mp ha).1
  have hb' := List.mem_range.mp (List.mem_filter.mp hb).1
  have h := congrArg (fun p : Fin 32 × Fin 64 => p.2.val) e
  simp only [wrapCol] at h
  omega

/-- No two bits of one sprite fall on the same pixel (R162 (d)). -/
theorem spritePixels_nodup (rows : List Byte) : ∀ (r0 c0 : Nat), rows.length ≤ 32 →
    (spritePixels r0 c0 rows).Nodup := by
  induction rows with
  | nil => intro r0 c0 _; simp [spritePixels]
  | cons byte rows ih =>
    intro r0 c0 hl
    simp only [List.length_cons] at hl
    simp only [spritePixels]
    refine List.Nodup.append (rowPixels_nodup _ _ _) (ih _ _ (by omega)) ?_
    intro p hp hq
    obtain ⟨b, _, _, e⟩ := (mem_rowPixels _ _ _ _).mp hp
    obtain ⟨j, b', hj, _, _, e'⟩ := (mem_spritePixels _ _ _ _).mp hq
    have h := congrArg (fun p => p.1.val) (e.symm.trans e')
    simp only [wrapRow] at h
    omega

end Sys2Proof.Machine
end

