-- ==== Sys2Proof/Laws/State.lean ====
section
/-! SUPPORT. One lemma per field per named update of the state, each true by unfolding the update once, so that no later
proof unfolds it again. -/

namespace Sys2Proof.Machine

variable (s : State)

/-! ## `State.writeV` -/

@[simp] theorem State.writeV_v (x : Nibble) (b : Byte) : (s.writeV x b).v = s.v.set x.toNat b x.isLt := rfl
@[simp] theorem State.writeV_i (x : Nibble) (b : Byte) : (s.writeV x b).i = s.i := rfl
@[simp] theorem State.writeV_pc (x : Nibble) (b : Byte) : (s.writeV x b).pc = s.pc := rfl
@[simp] theorem State.writeV_stack (x : Nibble) (b : Byte) : (s.writeV x b).stack = s.stack := rfl
@[simp] theorem State.writeV_sp (x : Nibble) (b : Byte) : (s.writeV x b).sp = s.sp := rfl
@[simp] theorem State.writeV_mem (x : Nibble) (b : Byte) : (s.writeV x b).mem = s.mem := rfl
@[simp] theorem State.writeV_fb (x : Nibble) (b : Byte) : (s.writeV x b).fb = s.fb := rfl
@[simp] theorem State.writeV_dt (x : Nibble) (b : Byte) : (s.writeV x b).dt = s.dt := rfl
@[simp] theorem State.writeV_st (x : Nibble) (b : Byte) : (s.writeV x b).st = s.st := rfl
@[simp] theorem State.writeV_running (x : Nibble) (b : Byte) : (s.writeV x b).running = s.running := rfl
@[simp] theorem State.writeV_haltReason (x : Nibble) (b : Byte) : (s.writeV x b).haltReason = s.haltReason := rfl
@[simp] theorem State.writeV_fbChanged (x : Nibble) (b : Byte) : (s.writeV x b).fbChanged = s.fbChanged := rfl
@[simp] theorem State.writeV_report (x : Nibble) (b : Byte) : (s.writeV x b).report = s.report := rfl
@[simp] theorem State.writeV_keys (x : Nibble) (b : Byte) : (s.writeV x b).keys = s.keys := rfl
@[simp] theorem State.writeV_pending (x : Nibble) (b : Byte) : (s.writeV x b).pending = s.pending := rfl
@[simp] theorem State.writeV_draws (x : Nibble) (b : Byte) : (s.writeV x b).draws = s.draws := rfl

/-! ## `State.writeFlag` -/

@[simp] theorem State.writeFlag_v (f : Bool) : (s.writeFlag f).v = s.v.set 15 (flagByte f) := rfl
@[simp] theorem State.writeFlag_i (f : Bool) : (s.writeFlag f).i = s.i := rfl
@[simp] theorem State.writeFlag_pc (f : Bool) : (s.writeFlag f).pc = s.pc := rfl
@[simp] theorem State.writeFlag_stack (f : Bool) : (s.writeFlag f).stack = s.stack := rfl
@[simp] theorem State.writeFlag_sp (f : Bool) : (s.writeFlag f).sp = s.sp := rfl
@[simp] theorem State.writeFlag_mem (f : Bool) : (s.writeFlag f).mem = s.mem := rfl
@[simp] theorem State.writeFlag_fb (f : Bool) : (s.writeFlag f).fb = s.fb := rfl
@[simp] theorem State.writeFlag_dt (f : Bool) : (s.writeFlag f).dt = s.dt := rfl
@[simp] theorem State.writeFlag_st (f : Bool) : (s.writeFlag f).st = s.st := rfl
@[simp] theorem State.writeFlag_running (f : Bool) : (s.writeFlag f).running = s.running := rfl
@[simp] theorem State.writeFlag_haltReason (f : Bool) : (s.writeFlag f).haltReason = s.haltReason := rfl
@[simp] theorem State.writeFlag_fbChanged (f : Bool) : (s.writeFlag f).fbChanged = s.fbChanged := rfl
@[simp] theorem State.writeFlag_report (f : Bool) : (s.writeFlag f).report = s.report := rfl
@[simp] theorem State.writeFlag_keys (f : Bool) : (s.writeFlag f).keys = s.keys := rfl
@[simp] theorem State.writeFlag_pending (f : Bool) : (s.writeFlag f).pending = s.pending := rfl
@[simp] theorem State.writeFlag_draws (f : Bool) : (s.writeFlag f).draws = s.draws := rfl

/-! ## `State.advance` -/

@[simp] theorem State.advance_v : s.advance.v = s.v := rfl
@[simp] theorem State.advance_i : s.advance.i = s.i := rfl
@[simp] theorem State.advance_pc : s.advance.pc = s.pc + 2#16 := rfl
@[simp] theorem State.advance_stack : s.advance.stack = s.stack := rfl
@[simp] theorem State.advance_sp : s.advance.sp = s.sp := rfl
@[simp] theorem State.advance_mem : s.advance.mem = s.mem := rfl
@[simp] theorem State.advance_fb : s.advance.fb = s.fb := rfl
@[simp] theorem State.advance_dt : s.advance.dt = s.dt := rfl
@[simp] theorem State.advance_st : s.advance.st = s.st := rfl
@[simp] theorem State.advance_running : s.advance.running = s.running := rfl
@[simp] theorem State.advance_haltReason : s.advance.haltReason = s.haltReason := rfl
@[simp] theorem State.advance_fbChanged : s.advance.fbChanged = s.fbChanged := rfl
@[simp] theorem State.advance_report : s.advance.report = s.report := rfl
@[simp] theorem State.advance_keys : s.advance.keys = s.keys := rfl
@[simp] theorem State.advance_pending : s.advance.pending = s.pending := rfl
@[simp] theorem State.advance_draws : s.advance.draws = s.draws := rfl
@[simp] theorem State.advance_readV (k : Nibble) : s.advance.readV k = s.readV k := rfl

/-! ## `State.jumpTo` -/

@[simp] theorem State.jumpTo_v (a : Word) : (s.jumpTo a).v = s.v := rfl
@[simp] theorem State.jumpTo_i (a : Word) : (s.jumpTo a).i = s.i := rfl
@[simp] theorem State.jumpTo_pc (a : Word) : (s.jumpTo a).pc = a := rfl
@[simp] theorem State.jumpTo_stack (a : Word) : (s.jumpTo a).stack = s.stack := rfl
@[simp] theorem State.jumpTo_sp (a : Word) : (s.jumpTo a).sp = s.sp := rfl
@[simp] theorem State.jumpTo_mem (a : Word) : (s.jumpTo a).mem = s.mem := rfl
@[simp] theorem State.jumpTo_fb (a : Word) : (s.jumpTo a).fb = s.fb := rfl
@[simp] theorem State.jumpTo_dt (a : Word) : (s.jumpTo a).dt = s.dt := rfl
@[simp] theorem State.jumpTo_st (a : Word) : (s.jumpTo a).st = s.st := rfl
@[simp] theorem State.jumpTo_running (a : Word) : (s.jumpTo a).running = s.running := rfl
@[simp] theorem State.jumpTo_haltReason (a : Word) : (s.jumpTo a).haltReason = s.haltReason := rfl
@[simp] theorem State.jumpTo_fbChanged (a : Word) : (s.jumpTo a).fbChanged = s.fbChanged := rfl
@[simp] theorem State.jumpTo_report (a : Word) : (s.jumpTo a).report = s.report := rfl
@[simp] theorem State.jumpTo_keys (a : Word) : (s.jumpTo a).keys = s.keys := rfl
@[simp] theorem State.jumpTo_pending (a : Word) : (s.jumpTo a).pending = s.pending := rfl
@[simp] theorem State.jumpTo_draws (a : Word) : (s.jumpTo a).draws = s.draws := rfl
@[simp] theorem State.jumpTo_readV (a : Word) (k : Nibble) : (s.jumpTo a).readV k = s.readV k := rfl

/-! ## `State.skipIf` -/

@[simp] theorem State.skipIf_v (c : Bool) : (s.skipIf c).v = s.v := rfl
@[simp] theorem State.skipIf_i (c : Bool) : (s.skipIf c).i = s.i := rfl
@[simp] theorem State.skipIf_pc (c : Bool) : (s.skipIf c).pc = if c then s.pc + 4#16 else s.pc + 2#16 := rfl
@[simp] theorem State.skipIf_stack (c : Bool) : (s.skipIf c).stack = s.stack := rfl
@[simp] theorem State.skipIf_sp (c : Bool) : (s.skipIf c).sp = s.sp := rfl
@[simp] theorem State.skipIf_mem (c : Bool) : (s.skipIf c).mem = s.mem := rfl
@[simp] theorem State.skipIf_fb (c : Bool) : (s.skipIf c).fb = s.fb := rfl
@[simp] theorem State.skipIf_dt (c : Bool) : (s.skipIf c).dt = s.dt := rfl
@[simp] theorem State.skipIf_st (c : Bool) : (s.skipIf c).st = s.st := rfl
@[simp] theorem State.skipIf_running (c : Bool) : (s.skipIf c).running = s.running := rfl
@[simp] theorem State.skipIf_haltReason (c : Bool) : (s.skipIf c).haltReason = s.haltReason := rfl
@[simp] theorem State.skipIf_fbChanged (c : Bool) : (s.skipIf c).fbChanged = s.fbChanged := rfl
@[simp] theorem State.skipIf_report (c : Bool) : (s.skipIf c).report = s.report := rfl
@[simp] theorem State.skipIf_keys (c : Bool) : (s.skipIf c).keys = s.keys := rfl
@[simp] theorem State.skipIf_pending (c : Bool) : (s.skipIf c).pending = s.pending := rfl
@[simp] theorem State.skipIf_draws (c : Bool) : (s.skipIf c).draws = s.draws := rfl
@[simp] theorem State.skipIf_readV (c : Bool) (k : Nibble) : (s.skipIf c).readV k = s.readV k := rfl

/-! ## `State.writeI` -/

@[simp] theorem State.writeI_v (a : Word) : (s.writeI a).v = s.v := rfl
@[simp] theorem State.writeI_i (a : Word) : (s.writeI a).i = a := rfl
@[simp] theorem State.writeI_pc (a : Word) : (s.writeI a).pc = s.pc := rfl
@[simp] theorem State.writeI_stack (a : Word) : (s.writeI a).stack = s.stack := rfl
@[simp] theorem State.writeI_sp (a : Word) : (s.writeI a).sp = s.sp := rfl
@[simp] theorem State.writeI_mem (a : Word) : (s.writeI a).mem = s.mem := rfl
@[simp] theorem State.writeI_fb (a : Word) : (s.writeI a).fb = s.fb := rfl
@[simp] theorem State.writeI_dt (a : Word) : (s.writeI a).dt = s.dt := rfl
@[simp] theorem State.writeI_st (a : Word) : (s.writeI a).st = s.st := rfl
@[simp] theorem State.writeI_running (a : Word) : (s.writeI a).running = s.running := rfl
@[simp] theorem State.writeI_haltReason (a : Word) : (s.writeI a).haltReason = s.haltReason := rfl
@[simp] theorem State.writeI_fbChanged (a : Word) : (s.writeI a).fbChanged = s.fbChanged := rfl
@[simp] theorem State.writeI_report (a : Word) : (s.writeI a).report = s.report := rfl
@[simp] theorem State.writeI_keys (a : Word) : (s.writeI a).keys = s.keys := rfl
@[simp] theorem State.writeI_pending (a : Word) : (s.writeI a).pending = s.pending := rfl
@[simp] theorem State.writeI_draws (a : Word) : (s.writeI a).draws = s.draws := rfl
@[simp] theorem State.writeI_readV (a : Word) (k : Nibble) : (s.writeI a).readV k = s.readV k := rfl

/-! ## `State.halt` -/

@[simp] theorem State.halt_v (c : HaltReason) : (s.halt c).v = s.v := rfl
@[simp] theorem State.halt_i (c : HaltReason) : (s.halt c).i = s.i := rfl
@[simp] theorem State.halt_pc (c : HaltReason) : (s.halt c).pc = s.pc := rfl
@[simp] theorem State.halt_stack (c : HaltReason) : (s.halt c).stack = s.stack := rfl
@[simp] theorem State.halt_sp (c : HaltReason) : (s.halt c).sp = s.sp := rfl
@[simp] theorem State.halt_mem (c : HaltReason) : (s.halt c).mem = s.mem := rfl
@[simp] theorem State.halt_fb (c : HaltReason) : (s.halt c).fb = s.fb := rfl
@[simp] theorem State.halt_dt (c : HaltReason) : (s.halt c).dt = s.dt := rfl
@[simp] theorem State.halt_st (c : HaltReason) : (s.halt c).st = s.st := rfl
@[simp] theorem State.halt_running (c : HaltReason) : (s.halt c).running = false := rfl
@[simp] theorem State.halt_haltReason (c : HaltReason) : (s.halt c).haltReason = c := rfl
@[simp] theorem State.halt_fbChanged (c : HaltReason) : (s.halt c).fbChanged = s.fbChanged := rfl
@[simp] theorem State.halt_report (c : HaltReason) : (s.halt c).report = s.report := rfl
@[simp] theorem State.halt_keys (c : HaltReason) : (s.halt c).keys = s.keys := rfl
@[simp] theorem State.halt_pending (c : HaltReason) : (s.halt c).pending = s.pending := rfl
@[simp] theorem State.halt_draws (c : HaltReason) : (s.halt c).draws = s.draws := rfl
@[simp] theorem State.halt_readV (c : HaltReason) (k : Nibble) : (s.halt c).readV k = s.readV k := rfl

/-! ## `State.writeFrame` -/

@[simp] theorem State.writeFrame_v (f : Frame) : (s.writeFrame f).v = s.v := rfl
@[simp] theorem State.writeFrame_i (f : Frame) : (s.writeFrame f).i = s.i := rfl
@[simp] theorem State.writeFrame_pc (f : Frame) : (s.writeFrame f).pc = s.pc := rfl
@[simp] theorem State.writeFrame_stack (f : Frame) : (s.writeFrame f).stack = s.stack := rfl
@[simp] theorem State.writeFrame_sp (f : Frame) : (s.writeFrame f).sp = s.sp := rfl
@[simp] theorem State.writeFrame_mem (f : Frame) : (s.writeFrame f).mem = s.mem := rfl
@[simp] theorem State.writeFrame_fb (f : Frame) : (s.writeFrame f).fb = f := rfl
@[simp] theorem State.writeFrame_dt (f : Frame) : (s.writeFrame f).dt = s.dt := rfl
@[simp] theorem State.writeFrame_st (f : Frame) : (s.writeFrame f).st = s.st := rfl
@[simp] theorem State.writeFrame_running (f : Frame) : (s.writeFrame f).running = s.running := rfl
@[simp] theorem State.writeFrame_haltReason (f : Frame) : (s.writeFrame f).haltReason = s.haltReason := rfl
@[simp] theorem State.writeFrame_fbChanged (f : Frame) : (s.writeFrame f).fbChanged = true := rfl
@[simp] theorem State.writeFrame_report (f : Frame) : (s.writeFrame f).report = s.report := rfl
@[simp] theorem State.writeFrame_keys (f : Frame) : (s.writeFrame f).keys = s.keys := rfl
@[simp] theorem State.writeFrame_pending (f : Frame) : (s.writeFrame f).pending = s.pending := rfl
@[simp] theorem State.writeFrame_draws (f : Frame) : (s.writeFrame f).draws = s.draws := rfl
@[simp] theorem State.writeFrame_readV (f : Frame) (k : Nibble) : (s.writeFrame f).readV k = s.readV k := rfl

/-! ## `State.timerTick` -/

@[simp] theorem State.timerTick_v : s.timerTick.v = s.v := rfl
@[simp] theorem State.timerTick_i : s.timerTick.i = s.i := rfl
@[simp] theorem State.timerTick_pc : s.timerTick.pc = s.pc := rfl
@[simp] theorem State.timerTick_stack : s.timerTick.stack = s.stack := rfl
@[simp] theorem State.timerTick_sp : s.timerTick.sp = s.sp := rfl
@[simp] theorem State.timerTick_mem : s.timerTick.mem = s.mem := rfl
@[simp] theorem State.timerTick_fb : s.timerTick.fb = s.fb := rfl
@[simp] theorem State.timerTick_dt : s.timerTick.dt = countDown s.dt := rfl
@[simp] theorem State.timerTick_st : s.timerTick.st = countDown s.st := rfl
@[simp] theorem State.timerTick_running : s.timerTick.running = s.running := rfl
@[simp] theorem State.timerTick_haltReason : s.timerTick.haltReason = s.haltReason := rfl
@[simp] theorem State.timerTick_fbChanged : s.timerTick.fbChanged = s.fbChanged := rfl
@[simp] theorem State.timerTick_report : s.timerTick.report = s.report := rfl
@[simp] theorem State.timerTick_keys : s.timerTick.keys = s.keys := rfl
@[simp] theorem State.timerTick_pending : s.timerTick.pending = s.pending := rfl
@[simp] theorem State.timerTick_draws : s.timerTick.draws = s.draws := rfl
@[simp] theorem State.timerTick_readV (k : Nibble) : s.timerTick.readV k = s.readV k := rfl

/-! ## `State.reportUnknown` -/

@[simp] theorem State.reportUnknown_v (w : Word) : (s.reportUnknown w).v = s.v := rfl
@[simp] theorem State.reportUnknown_i (w : Word) : (s.reportUnknown w).i = s.i := rfl
@[simp] theorem State.reportUnknown_pc (w : Word) : (s.reportUnknown w).pc = s.pc := rfl
@[simp] theorem State.reportUnknown_stack (w : Word) : (s.reportUnknown w).stack = s.stack := rfl
@[simp] theorem State.reportUnknown_sp (w : Word) : (s.reportUnknown w).sp = s.sp := rfl
@[simp] theorem State.reportUnknown_mem (w : Word) : (s.reportUnknown w).mem = s.mem := rfl
@[simp] theorem State.reportUnknown_fb (w : Word) : (s.reportUnknown w).fb = s.fb := rfl
@[simp] theorem State.reportUnknown_dt (w : Word) : (s.reportUnknown w).dt = s.dt := rfl
@[simp] theorem State.reportUnknown_st (w : Word) : (s.reportUnknown w).st = s.st := rfl
@[simp] theorem State.reportUnknown_running (w : Word) : (s.reportUnknown w).running = s.running := rfl
@[simp] theorem State.reportUnknown_haltReason (w : Word) : (s.reportUnknown w).haltReason = s.haltReason := rfl
@[simp] theorem State.reportUnknown_fbChanged (w : Word) : (s.reportUnknown w).fbChanged = s.fbChanged := rfl
@[simp] theorem State.reportUnknown_report (w : Word) : (s.reportUnknown w).report = some ⟨s.pc, w⟩ := rfl
@[simp] theorem State.reportUnknown_keys (w : Word) : (s.reportUnknown w).keys = s.keys := rfl
@[simp] theorem State.reportUnknown_pending (w : Word) : (s.reportUnknown w).pending = s.pending := rfl
@[simp] theorem State.reportUnknown_draws (w : Word) : (s.reportUnknown w).draws = s.draws := rfl
@[simp] theorem State.reportUnknown_readV (w : Word) (k : Nibble) : (s.reportUnknown w).readV k = s.readV k := rfl

/-! ## `State.beginEdge` -/

@[simp] theorem State.beginEdge_v : s.beginEdge.v = s.v := rfl
@[simp] theorem State.beginEdge_i : s.beginEdge.i = s.i := rfl
@[simp] theorem State.beginEdge_pc : s.beginEdge.pc = s.pc := rfl
@[simp] theorem State.beginEdge_stack : s.beginEdge.stack = s.stack := rfl
@[simp] theorem State.beginEdge_sp : s.beginEdge.sp = s.sp := rfl
@[simp] theorem State.beginEdge_mem : s.beginEdge.mem = s.mem := rfl
@[simp] theorem State.beginEdge_fb : s.beginEdge.fb = s.fb := rfl
@[simp] theorem State.beginEdge_dt : s.beginEdge.dt = s.dt := rfl
@[simp] theorem State.beginEdge_st : s.beginEdge.st = s.st := rfl
@[simp] theorem State.beginEdge_running : s.beginEdge.running = s.running := rfl
@[simp] theorem State.beginEdge_haltReason : s.beginEdge.haltReason = s.haltReason := rfl
@[simp] theorem State.beginEdge_fbChanged : s.beginEdge.fbChanged = false := rfl
@[simp] theorem State.beginEdge_report : s.beginEdge.report = none := rfl
@[simp] theorem State.beginEdge_keys : s.beginEdge.keys = s.keys := rfl
@[simp] theorem State.beginEdge_pending : s.beginEdge.pending = s.pending.tail := rfl
@[simp] theorem State.beginEdge_draws : s.beginEdge.draws = s.draws := rfl
@[simp] theorem State.beginEdge_readV (k : Nibble) : s.beginEdge.readV k = s.readV k := rfl

/-! ## Registers -/

@[simp] theorem State.writeV_readV_same (x : Nibble) (b : Byte) : (s.writeV x b).readV x = b := by
  simp [State.readV]

theorem State.writeV_readV_other (x : Nibble) (b : Byte) (k : Nibble) (h : k ≠ x) :
    (s.writeV x b).readV k = s.readV k := by
  have hn : x.toNat ≠ k.toNat := fun e => h (BitVec.eq_of_toNat_eq e.symm)
  simp [State.readV, hn]

@[simp] theorem State.writeFlag_readV_flag (f : Bool) : (s.writeFlag f).readV 15#4 = flagByte f :=
  State.writeV_readV_same s 15#4 (flagByte f)

theorem State.writeFlag_readV_other (f : Bool) (k : Nibble) (h : k ≠ 15#4) : (s.writeFlag f).readV k = s.readV k :=
  State.writeV_readV_other s 15#4 (flagByte f) k h

/-! ## The switches at their defaults (00_scope.md R5) -/

@[simp] theorem State.logicFlag_default : s.logicFlag Config.logicResetsVF = s := rfl

@[simp] theorem State.shiftSource_default (x y : Nibble) : s.shiftSource Config.shiftSourceIsVY x y = s.readV x := rfl

@[simp] theorem State.afterTransfer_default (n : Nat) : s.afterTransfer Config.ldStIncrementsI n = s := rfl

end Sys2Proof.Machine
end

