-- ==== Sys2Proof/Laws/Operands.lean ====
section
/-! SUPPORT. What each shared operand, flag, stack, sprite and keypad operation answers. -/

namespace Sys2Proof.Machine

/-! ## Results and flags as numbers (42_register_alu.md R120) -/

theorem addByte_toNat (a b : Byte) : (addByte a b).toNat = (a.toNat + b.toNat) % 256 := by
  simp [addByte]

theorem subByte_toNat (a b : Byte) : (subByte a b).toNat = (a.toNat + 256 - b.toNat) % 256 := by
  have ha := a.isLt
  have hb := b.isLt
  simp only [subByte, BitVec.toNat_ofInt]
  omega

theorem shiftRightOne_toNat (a : Byte) : (shiftRightOne a).toNat = a.toNat / 2 := by
  have ha := a.isLt
  simp only [shiftRightOne, BitVec.toNat_ofNat]
  omega

theorem shiftLeftOne_toNat (a : Byte) : (shiftLeftOne a).toNat = a.toNat * 2 % 256 := by
  simp [shiftLeftOne]

theorem flagByte_outRight (a : Byte) : (flagByte (outRight a)).toNat = a.toNat % 2 := by
  have h : outRight a = decide (a.toNat % 2 = 1) := by
    rw [outRight, ← BitVec.testBit_toNat, Nat.testBit_zero]
  rw [h]
  rcases Nat.mod_two_eq_zero_or_one a.toNat with e | e <;> simp [flagByte, e]

theorem flagByte_outLeft (a : Byte) : (flagByte (outLeft a)).toNat = a.toNat / 128 := by
  have ha := a.isLt
  have h : outLeft a = decide (a.toNat / 128 % 2 = 1) := by
    rw [outLeft, ← BitVec.testBit_toNat, Nat.testBit_eq_decide_div_mod_eq]
  rw [h]
  by_cases e : a.toNat / 128 % 2 = 1
  · simp only [e, flagByte, decide_true, if_true]; show 1 = _; omega
  · simp only [e, flagByte, decide_false]; show 0 = _; omega

theorem countDown_toNat (b : Byte) : (countDown b).toNat = b.toNat - 1 := by
  unfold countDown
  by_cases h : b.toNat > 0
  · rw [if_pos h, BitVec.toNat_sub_of_le (by rw [BitVec.le_def]; exact h)]
    simp
  · rw [if_neg h]; omega

/-! ## Operands -/

theorem targetOf_toNat (addr : Addr) : (targetOf addr).toNat = addr.toNat := by
  have h := addr.isLt
  simp only [targetOf, BitVec.toNat_setWidth]
  omega

theorem widen_toNat (b : Byte) : (widen b).toNat = b.toNat := by
  have h := b.isLt
  simp only [widen, BitVec.toNat_setWidth]
  omega

theorem lowNibble_toNat (b : Byte) : (lowNibble b).toNat = b.toNat % 16 := by
  simp [lowNibble, BitVec.extractLsb'_toNat]

theorem glyphAddress_toNat (d : Nibble) : (glyphAddress d).toNat = 0x0050 + 5 * d.toNat := by
  have h := d.isLt
  simp only [glyphAddress, Config.fontBase, Config.fontStride, BitVec.toNat_add, BitVec.toNat_ofNat]
  omega

@[simp] theorem bcdDigits_length (b : Byte) : (bcdDigits b).length = 3 := rfl

@[simp] theorem State.registersUpTo_length (s : State) (x : Nibble) : (s.registersUpTo x).length = x.toNat + 1 := by
  have h := x.isLt
  simp only [State.registersUpTo, List.length_take, Vector.length_toList]
  omega

theorem State.registersUpTo_getElem (s : State) (x k : Nibble) (h : k.toNat < (s.registersUpTo x).length) :
    (s.registersUpTo x)[k.toNat] = s.readV k := by
  simp [State.registersUpTo, State.readV]

/-- Registers loaded from a range: those inside it get its bytes, the others keep theirs (R146). -/
theorem loadFrom_getElem (bs : List Byte) : ∀ (j : Nat) (v : Vector Byte 16) (k : Nat) (hk : k < 16),
    (loadFrom bs j v)[k] = if h : j ≤ k ∧ k - j < bs.length then bs[k - j] else v[k] := by
  induction bs with
  | nil => intro j v k hk; simp [loadFrom]
  | cons b bs ih =>
    intro j v k hk
    simp only [loadFrom]
    rw [ih]
    by_cases h1 : k = j
    · subst h1
      simp
    · by_cases h2 : j < k
      · have e : k - j = (k - (j + 1)) + 1 := by omega
        by_cases h3 : k - (j + 1) < bs.length
        · rw [dif_pos ⟨by omega, h3⟩, dif_pos ⟨by omega, by simp; omega⟩]
          simp [e]
        · rw [dif_neg (by omega), dif_neg (by simp; omega)]
          exact Vector.getElem_setIfInBounds_ne hk (by omega)
      · rw [dif_neg (by omega), dif_neg (by omega)]
        exact Vector.getElem_setIfInBounds_ne hk (by omega)

/-! ## Stack (10_state.md R16) -/

/-- Everything a push can do. -/
theorem State.pushPC_cases (s : State) :
    (s.sp.val = 16 ∧ s.pushPC = none) ∨
    ∃ h : s.sp.val < 16, s.pushPC =
      some { s with stack := s.stack.set s.sp.val s.pc h, sp := ⟨s.sp.val + 1, Nat.succ_lt_succ h⟩ } := by
  by_cases h : s.sp.val < 16
  · exact .inr ⟨h, dif_pos h⟩
  · exact .inl ⟨by omega, dif_neg h⟩

/-- Everything a pop can do. -/
theorem State.popEntry_cases (s : State) :
    (s.sp.val = 0 ∧ s.popEntry = none) ∨
    ∃ h : 0 < s.sp.val, s.popEntry =
      some (s.stack[s.sp.val - 1]'(by omega), { s with sp := ⟨s.sp.val - 1, by omega⟩ }) := by
  by_cases h : 0 < s.sp.val
  · exact .inr ⟨h, dif_pos h⟩
  · exact .inl ⟨by omega, dif_neg h⟩

/-! ## Sprite rows (44_display.md R162) -/

/-- Everything reading a sprite can do. -/
theorem State.spriteRows_cases (s : State) (n : Nibble) :
    ((0 < n.toNat ∧ s.i.toNat + n.toNat - 1 > 4095) ∧ s.spriteRows n = none) ∨
    ((n.toNat = 0 ∨ s.i.toNat + n.toNat - 1 ≤ 4095) ∧ s.spriteRows n = some (s.mem.readBytes s.i.toNat n.toNat)) := by
  unfold State.spriteRows
  by_cases h : n.toNat > 0
  · rw [if_pos h]
    rcases s.memRead_cases s.base n.toNat with ⟨hc, e⟩ | ⟨hc, e⟩
    · exact .inl ⟨⟨h, hc⟩, e⟩
    · exact .inr ⟨.inr hc, e⟩
  · have h0 : n.toNat = 0 := by omega
    rw [if_neg h, h0]
    exact .inr ⟨.inl rfl, rfl⟩

/-! ## Keypad (45_timers_keypad.md R173) -/

theorem State.lowestKey_none (s : State) (h : ∀ k : Nibble, s.keys.getLsbD k.toNat = false) : s.lowestKey = none := by
  simp only [State.lowestKey, List.find?_eq_none, List.mem_range]
  intro k hk
  have := h (BitVec.ofNat 4 k)
  rw [BitVec.toNat_ofNat, Nat.mod_eq_of_lt (by omega)] at this
  simp [this]

theorem State.lowestKey_some (s : State) (k : Nibble) (hk : s.keys.getLsbD k.toNat = true)
    (hlow : ∀ j : Nibble, j.toNat < k.toNat → s.keys.getLsbD j.toNat = false) : s.lowestKey = some k.toNat := by
  have hb := k.isLt
  simp only [State.lowestKey, List.find?_range_eq_some]
  refine ⟨hk, by simpa using hb, ?_⟩
  intro j hj
  have := hlow (BitVec.ofNat 4 j) (by rw [BitVec.toNat_ofNat, Nat.mod_eq_of_lt (by omega)]; exact hj)
  rw [BitVec.toNat_ofNat, Nat.mod_eq_of_lt (by omega)] at this
  simp [this]

/-- The lowest key is a key. -/
theorem State.lowestKey_lt (s : State) (k : Nat) (h : s.lowestKey = some k) : k < 16 := by
  simpa using List.mem_of_find?_eq_some h

end Sys2Proof.Machine
end

