-- ==== Sys2Proof/Laws/Cycle.lean ====
section
/-! SUPPORT. Every operation and every event answers a next state, and how sequences of events compose
(40_execution_cycle.md R81, R82, R89). -/

namespace Sys2Proof.Machine

/-- Every operation answers a next state: a halt is one (60_exceptions.md R193). -/
theorem exec_answers_next (i : Instr) (s : State) : ∃ t, exec i s = .next t := by
  cases i with
  | returnFromSubroutine =>
    simp only [exec, execReturnFromSubroutine]
    split <;> exact ⟨_, rfl⟩
  | callSubroutine a =>
    simp only [exec, execCallSubroutine]
    split <;> exact ⟨_, rfl⟩
  | storeBcd x =>
    simp only [exec, execStoreBcd]
    split <;> exact ⟨_, rfl⟩
  | storeRegisters x =>
    simp only [exec, execStoreRegisters]
    split <;> exact ⟨_, rfl⟩
  | loadRegisters x =>
    simp only [exec, execLoadRegisters]
    split <;> exact ⟨_, rfl⟩
  | draw x y n =>
    simp only [exec, execDraw]
    split <;> exact ⟨_, rfl⟩
  | waitForKey x =>
    simp only [exec, execWaitForKey]
    split <;> exact ⟨_, rfl⟩
  | _ => exact ⟨_, rfl⟩

/-- Everything an instruction step can do (R82). -/
theorem instrStep_cases (s : State) :
    (s.running = false ∧ instrStep s = .next s) ∨
    (s.running = true ∧ s.pc.toNat + 1 > 4095 ∧ instrStep s = .next (s.halt .pcOutOfBounds)) ∨
    (s.running = true ∧ s.pc.toNat + 1 ≤ 4095 ∧
      instrStep s = exec (decodeWord (wordOfBytes (s.mem.read s.pc.toNat) (s.mem.read (s.pc.toNat + 1)))) s) := by
  unfold instrStep State.fetch
  by_cases hr : s.running = false
  · exact .inl ⟨hr, if_pos hr⟩
  · have hr' : s.running = true := by simpa using hr
    by_cases hp : s.pc.toNat + 1 > 4095
    · exact .inr (.inl ⟨hr', hp, by simp [hr', hp]⟩)
    · exact .inr (.inr ⟨hr', by omega, by simp [hr', hp]⟩)

/-- Every event answers a next state. -/
theorem applyEvent_answers_next (e : Event) (s : State) : ∃ t, applyEvent e s = .next t := by
  cases e with
  | step =>
    rcases instrStep_cases s with ⟨_, h⟩ | ⟨_, _, h⟩ | ⟨_, _, h⟩
    · exact ⟨_, h⟩
    · exact ⟨_, h⟩
    · obtain ⟨t, ht⟩ := exec_answers_next _ s
      exact ⟨t, h.trans ht⟩
  | _ => exact ⟨_, rfl⟩

theorem runEvents_cons_next {e : Event} {s t : State} (es : List Event) (h : applyEvent e s = .next t) :
    runEvents (e :: es) s = runEvents es t := by
  simp [runEvents, h]

/-- A sequence of events in two parts. -/
theorem runEvents_append_next {s t : State} (es fs : List Event) (h : runEvents es s = .next t) :
    runEvents (es ++ fs) s = runEvents fs t := by
  induction es generalizing s with
  | nil =>
    simp only [runEvents, Host.Outcome.next.injEq] at h
    subst h
    rfl
  | cons e es ih =>
    obtain ⟨u, hu⟩ := applyEvent_answers_next e s
    rw [runEvents_cons_next es hu] at h
    rw [List.cons_append, runEvents_cons_next _ hu]
    exact ih h

/-- What every event keeps, every sequence of events keeps: the induction over a history, once. -/
theorem runEvents_invariant {P : State → Prop} (es : List Event)
    (hP : ∀ e ∈ es, ∀ s t, P s → applyEvent e s = .next t → P t) :
    ∀ s, P s → ∃ t, runEvents es s = .next t ∧ P t := by
  induction es with
  | nil => intro s h; exact ⟨s, rfl, h⟩
  | cons e es ih =>
    intro s h
    obtain ⟨u, hu⟩ := applyEvent_answers_next e s
    obtain ⟨t, ht, hPt⟩ := ih (fun d hd => hP d (by simp [hd])) u (hP e (by simp) s u h hu)
    exact ⟨t, (runEvents_cons_next es hu).trans ht, hPt⟩

/-- A clock edge at which `step` alone is asserted is one instruction step, after the inputs are taken and the one-period
outputs are over. -/
theorem step_of_step_alone (s : State) (k : BitVec 16) (h : s.nextInputs = { step := true, keys := k }) :
    step s = instrStep { s.beginEdge with keys := k } := by
  simp only [step, clockEdge, h, edgeEvents]
  show runEvents [.step] { s.beginEdge with keys := k } = _
  simp only [runEvents, applyEvent]
  generalize instrStep _ = o
  cases o <;> rfl

/-- Everything the `Load` event can do (10_state.md R27). -/
theorem State.load_cases (s : State) (a : Addr) (b : Byte) :
    (s.running = true ∧ s.load a b = s) ∨
    (s.running = false ∧ s.load a b = { s with mem := s.mem.write a.toNat b }) := by
  unfold State.load
  by_cases h : s.running = false
  · exact .inr ⟨h, if_pos h⟩
  · exact .inl ⟨by simpa using h, if_neg h⟩

/-- Everything the `Start` event can do (40_execution_cycle.md R81). -/
theorem State.start_cases (s : State) :
    (s.running = false ∧ s.haltReason.fatal = false ∧ s.start = { s with running := true, haltReason := .none }) ∨
    ((s.running = true ∨ s.haltReason.fatal = true) ∧ s.start = s) := by
  unfold State.start
  by_cases h : s.running = false ∧ s.haltReason.fatal = false
  · exact .inl ⟨h.1, h.2, if_pos h⟩
  · refine .inr ⟨?_, if_neg h⟩
    by_cases hr : s.running = true
    · exact .inl hr
    · exact .inr (by simpa using fun hf => h ⟨by simpa using hr, hf⟩)

/-- Everything the `Stop` event can do (60_exceptions.md R196). -/
theorem State.stop_cases (s : State) :
    (s.running = true ∧ s.stop = s.halt .stop) ∨ (s.running = false ∧ s.stop = s) := by
  unfold State.stop
  by_cases h : s.running = true
  · exact .inl ⟨h, if_pos h⟩
  · exact .inr ⟨by simpa using h, if_neg h⟩

end Sys2Proof.Machine
end

