-- ==== Sys2Proof/Laws/Fields.lean ====
section
/-! SUPPORT. The fields of a word and of each format as numbers, and the words of the instruction rules ("w = base | x << 8
| kk") as the formats' words (30_encoding.md R61, R62). -/

namespace Sys2Proof

/-- The number an appended pair of fields stands for. -/
theorem toNat_append_fields {m n : Nat} (a : BitVec m) (b : BitVec n) :
    (a ++ b).toNat = a.toNat * 2 ^ n + b.toNat := by
  rw [BitVec.toNat_append, ← Nat.shiftLeft_add_eq_or_of_lt b.isLt, Nat.shiftLeft_eq]

/-! ## Fields of any word -/

theorem fieldOp_toNat (w : Word) : (fieldOp w).toNat = w.toNat / 4096 := by
  have := w.isLt
  simp only [fieldOp, BitVec.extractLsb'_toNat, Nat.shiftRight_eq_div_pow]
  omega

theorem fieldX_toNat (w : Word) : (fieldX w).toNat = w.toNat / 256 % 16 := by
  simp [fieldX, BitVec.extractLsb'_toNat, Nat.shiftRight_eq_div_pow]

theorem fieldY_toNat (w : Word) : (fieldY w).toNat = w.toNat / 16 % 16 := by
  simp [fieldY, BitVec.extractLsb'_toNat, Nat.shiftRight_eq_div_pow]

theorem fieldN_toNat (w : Word) : (fieldN w).toNat = w.toNat % 16 := by
  simp [fieldN, BitVec.extractLsb'_toNat]

theorem fieldKK_toNat (w : Word) : (fieldKK w).toNat = w.toNat % 256 := by
  simp [fieldKK, BitVec.extractLsb'_toNat]

theorem fieldAddr_toNat (w : Word) : (fieldAddr w).toNat = w.toNat % 4096 := by
  simp [fieldAddr, BitVec.extractLsb'_toNat]

/-! ## The numbers of the formats -/

theorem formatADDR_toNat (op : Nibble) (addr : Addr) :
    (formatADDR op addr).toNat = op.toNat * 4096 + addr.toNat :=
  toNat_append_fields op addr

theorem formatXKK_toNat (op x : Nibble) (kk : Byte) :
    (formatXKK op x kk).toNat = op.toNat * 4096 + x.toNat * 256 + kk.toNat := by
  show (op ++ (x ++ kk)).toNat = _
  rw [toNat_append_fields, toNat_append_fields]
  omega

theorem formatXYN_toNat (op x y n : Nibble) :
    (formatXYN op x y n).toNat = op.toNat * 4096 + x.toNat * 256 + y.toNat * 16 + n.toNat := by
  show (op ++ (x ++ (y ++ n))).toNat = _
  rw [toNat_append_fields, toNat_append_fields, toNat_append_fields]
  omega

/-! ## The fields of the formats -/

@[simp] theorem fieldOp_formatADDR (op : Nibble) (addr : Addr) : fieldOp (formatADDR op addr) = op := by
  apply BitVec.eq_of_toNat_eq
  rw [fieldOp_toNat, formatADDR_toNat]
  omega

@[simp] theorem fieldAddr_formatADDR (op : Nibble) (addr : Addr) : fieldAddr (formatADDR op addr) = addr := by
  apply BitVec.eq_of_toNat_eq
  rw [fieldAddr_toNat, formatADDR_toNat]
  omega

@[simp] theorem fieldOp_formatXKK (op x : Nibble) (kk : Byte) : fieldOp (formatXKK op x kk) = op := by
  apply BitVec.eq_of_toNat_eq
  rw [fieldOp_toNat, formatXKK_toNat]
  omega

@[simp] theorem fieldX_formatXKK (op x : Nibble) (kk : Byte) : fieldX (formatXKK op x kk) = x := by
  apply BitVec.eq_of_toNat_eq
  rw [fieldX_toNat, formatXKK_toNat]
  omega

@[simp] theorem fieldKK_formatXKK (op x : Nibble) (kk : Byte) : fieldKK (formatXKK op x kk) = kk := by
  apply BitVec.eq_of_toNat_eq
  rw [fieldKK_toNat, formatXKK_toNat]
  omega

@[simp] theorem fieldOp_formatXYN (op x y n : Nibble) : fieldOp (formatXYN op x y n) = op := by
  apply BitVec.eq_of_toNat_eq
  rw [fieldOp_toNat, formatXYN_toNat]
  omega

@[simp] theorem fieldX_formatXYN (op x y n : Nibble) : fieldX (formatXYN op x y n) = x := by
  apply BitVec.eq_of_toNat_eq
  rw [fieldX_toNat, formatXYN_toNat]
  omega

@[simp] theorem fieldY_formatXYN (op x y n : Nibble) : fieldY (formatXYN op x y n) = y := by
  apply BitVec.eq_of_toNat_eq
  rw [fieldY_toNat, formatXYN_toNat]
  omega

@[simp] theorem fieldN_formatXYN (op x y n : Nibble) : fieldN (formatXYN op x y n) = n := by
  apply BitVec.eq_of_toNat_eq
  rw [fieldN_toNat, formatXYN_toNat]
  omega

/-! ## A word from its fields -/

theorem formatADDR_fields (w : Word) : formatADDR (fieldOp w) (fieldAddr w) = w := by
  apply BitVec.eq_of_toNat_eq
  rw [formatADDR_toNat, fieldOp_toNat, fieldAddr_toNat]
  omega

theorem formatXKK_fields (w : Word) : formatXKK (fieldOp w) (fieldX w) (fieldKK w) = w := by
  apply BitVec.eq_of_toNat_eq
  rw [formatXKK_toNat, fieldOp_toNat, fieldX_toNat, fieldKK_toNat]
  omega

theorem formatXYN_fields (w : Word) : formatXYN (fieldOp w) (fieldX w) (fieldY w) (fieldN w) = w := by
  apply BitVec.eq_of_toNat_eq
  rw [formatXYN_toNat, fieldOp_toNat, fieldX_toNat, fieldY_toNat, fieldN_toNat]
  omega

/-! ## The words of the instruction rules -/

theorem orADDR_eq (op : Nibble) (addr : Addr) : orADDR (formatADDR op 0#12) addr = formatADDR op addr := by
  apply BitVec.eq_of_getLsbD_eq
  intro j hj
  change ((op ++ 0#12) ||| addr.setWidth 16).getLsbD j = (op ++ addr).getLsbD j
  simp
  grind

theorem orXKK_eq (op x : Nibble) (kk : Byte) : orXKK (formatXKK op 0#4 0#8) x kk = formatXKK op x kk := by
  apply BitVec.eq_of_getLsbD_eq
  intro j hj
  change ((op ++ (0#4 ++ 0#8)) ||| (x.setWidth 16 <<< 8) ||| kk.setWidth 16).getLsbD j = (op ++ (x ++ kk)).getLsbD j
  simp
  grind

theorem orXYN_eq (op x y n : Nibble) : orXYN (formatXYN op 0#4 0#4 0#4) x y n = formatXYN op x y n := by
  apply BitVec.eq_of_getLsbD_eq
  intro j hj
  change ((op ++ (0#4 ++ (0#4 ++ 0#4))) ||| (x.setWidth 16 <<< 8) ||| (y.setWidth 16 <<< 4) ||| n.setWidth 16).getLsbD j =
    (op ++ (x ++ (y ++ n))).getLsbD j
  simp
  grind

theorem orXY_eq (op x y sub4 : Nibble) : orXY (formatXYN op 0#4 0#4 sub4) x y = formatXYN op x y sub4 := by
  apply BitVec.eq_of_getLsbD_eq
  intro j hj
  change ((op ++ (0#4 ++ (0#4 ++ sub4))) ||| (x.setWidth 16 <<< 8) ||| (y.setWidth 16 <<< 4)).getLsbD j =
    (op ++ (x ++ (y ++ sub4))).getLsbD j
  simp
  grind

theorem orX_eq (op x : Nibble) (sub8 : Byte) : orX (formatXKK op 0#4 sub8) x = formatXKK op x sub8 := by
  apply BitVec.eq_of_getLsbD_eq
  intro j hj
  change ((op ++ (0#4 ++ sub8)) ||| (x.setWidth 16 <<< 8)).getLsbD j = (op ++ (x ++ sub8)).getLsbD j
  simp
  grind

/-! The same with the base given as the rule's number. -/

theorem orADDR_of_base {base : Word} (op : Nibble) (addr : Addr) (h : base = formatADDR op 0#12) :
    orADDR base addr = formatADDR op addr := by rw [h, orADDR_eq]

theorem orXKK_of_base {base : Word} (op x : Nibble) (kk : Byte) (h : base = formatXKK op 0#4 0#8) :
    orXKK base x kk = formatXKK op x kk := by rw [h, orXKK_eq]

theorem orXYN_of_base {base : Word} (op x y n : Nibble) (h : base = formatXYN op 0#4 0#4 0#4) :
    orXYN base x y n = formatXYN op x y n := by rw [h, orXYN_eq]

theorem orXY_of_base {base : Word} (op x y sub4 : Nibble) (h : base = formatXYN op 0#4 0#4 sub4) :
    orXY base x y = formatXYN op x y sub4 := by rw [h, orXY_eq]

theorem orX_of_base {base : Word} (op x : Nibble) (sub8 : Byte) (h : base = formatXKK op 0#4 sub8) :
    orX base x = formatXKK op x sub8 := by rw [h, orX_eq]

/-! ## Bytes and words (20_memory.md R41) -/

theorem wordOfBytes_toNat (hi lo : Byte) : (wordOfBytes hi lo).toNat = hi.toNat * 256 + lo.toNat :=
  toNat_append_fields hi lo

theorem wordOfBytes_bytes (w : Word) : wordOfBytes (w.extractLsb' 8 8) (w.extractLsb' 0 8) = w := by
  apply BitVec.eq_of_toNat_eq
  rw [wordOfBytes_toNat]
  simp only [BitVec.extractLsb'_toNat, Nat.shiftRight_eq_div_pow]
  have := w.isLt
  omega

end Sys2Proof
end

