-- ==== Sys2Proof/Laws/Decoding.lean ====
section
/-! SUPPORT. What each family of the decoder answers, as conditions on the selector's number (30_encoding.md R65 to R71),
and the unknown space of R72 as numbers. -/

namespace Sys2Proof

/-- The unknown space (R72) as conditions on the word's number. -/
theorem isUnknownWord_iff (w : Word) : isUnknownWord w = true ↔
    (w.toNat < 0x1000 ∧ w.toNat ≠ 0xE0 ∧ w.toNat ≠ 0xEE) ∨
    ((w.toNat / 0x1000 = 5 ∨ w.toNat / 0x1000 = 9) ∧ w.toNat % 16 ≠ 0) ∨
    (w.toNat / 0x1000 = 8 ∧ (w.toNat % 16 = 8 ∨ w.toNat % 16 = 9 ∨ w.toNat % 16 = 10 ∨ w.toNat % 16 = 11 ∨
      w.toNat % 16 = 12 ∨ w.toNat % 16 = 13 ∨ w.toNat % 16 = 15)) ∨
    (w.toNat / 0x1000 = 14 ∧ w.toNat % 256 ≠ 0x9E ∧ w.toNat % 256 ≠ 0xA1) ∨
    (w.toNat / 0x1000 = 15 ∧ w.toNat % 256 ≠ 0x07 ∧ w.toNat % 256 ≠ 0x0A ∧ w.toNat % 256 ≠ 0x15 ∧
      w.toNat % 256 ≠ 0x18 ∧ w.toNat % 256 ≠ 0x1E ∧ w.toNat % 256 ≠ 0x29 ∧ w.toNat % 256 ≠ 0x33 ∧
      w.toNat % 256 ≠ 0x55 ∧ w.toNat % 256 ≠ 0x65) := by
  have e1 : w = 0x00E0#16 ↔ w.toNat = 0xE0 := by rw [BitVec.toNat_eq]; rfl
  have e2 : w = 0x00EE#16 ↔ w.toNat = 0xEE := by rw [BitVec.toNat_eq]; rfl
  simp [isUnknownWord, inUnknownFamily0, inUnknownFamily59, inUnknownFamily8, inUnknownFamilyE, inUnknownFamilyF, e1, e2]
  omega

/-- A field is a constant exactly when their numbers agree. -/
theorem field_eq_iff {n : Nat} (a b : BitVec n) : a = b ↔ a.toNat = b.toNat := BitVec.toNat_eq

theorem decodeFamily0_unknown (w : Word) : decodeFamily0 w = .unknown w ↔
    w.toNat % 4096 ≠ 0xE0 ∧ w.toNat % 4096 ≠ 0xEE := by
  have h := fieldAddr_toNat w
  unfold decodeFamily0
  split <;> simp_all [field_eq_iff]

theorem decodeFamily5_unknown (w : Word) : decodeFamily5 w = .unknown w ↔ w.toNat % 16 ≠ 0 := by
  have h := fieldN_toNat w
  unfold decodeFamily5
  split <;> simp_all [field_eq_iff]

theorem decodeFamily8_unknown (w : Word) : decodeFamily8 w = .unknown w ↔
    8 ≤ w.toNat % 16 ∧ w.toNat % 16 ≠ 14 := by
  have h := fieldN_toNat w
  unfold decodeFamily8
  split <;> simp_all [field_eq_iff] <;> omega

theorem decodeFamily9_unknown (w : Word) : decodeFamily9 w = .unknown w ↔ w.toNat % 16 ≠ 0 := by
  have h := fieldN_toNat w
  unfold decodeFamily9
  split <;> simp_all [field_eq_iff]

theorem decodeFamilyE_unknown (w : Word) : decodeFamilyE w = .unknown w ↔
    w.toNat % 256 ≠ 0x9E ∧ w.toNat % 256 ≠ 0xA1 := by
  have h := fieldKK_toNat w
  unfold decodeFamilyE
  split <;> simp_all [field_eq_iff]

theorem decodeFamilyF_unknown (w : Word) : decodeFamilyF w = .unknown w ↔
    w.toNat % 256 ≠ 0x07 ∧ w.toNat % 256 ≠ 0x0A ∧ w.toNat % 256 ≠ 0x15 ∧
      w.toNat % 256 ≠ 0x18 ∧ w.toNat % 256 ≠ 0x1E ∧ w.toNat % 256 ≠ 0x29 ∧ w.toNat % 256 ≠ 0x33 ∧
      w.toNat % 256 ≠ 0x55 ∧ w.toNat % 256 ≠ 0x65 := by
  have h := fieldKK_toNat w
  unfold decodeFamilyF
  split <;> simp_all [field_eq_iff]

/-- Level one of the decoder as conditions on the family nibble's number (R64). -/
theorem decodeWord_cases (w : Word) :
    (w.toNat / 4096 = 0 ∧ decodeWord w = decodeFamily0 w) ∨
    (w.toNat / 4096 = 1 ∧ decodeWord w = .jump (fieldAddr w)) ∨
    (w.toNat / 4096 = 2 ∧ decodeWord w = .callSubroutine (fieldAddr w)) ∨
    (w.toNat / 4096 = 3 ∧ decodeWord w = .skipIfEqual (fieldX w) (fieldKK w)) ∨
    (w.toNat / 4096 = 4 ∧ decodeWord w = .skipIfNotEqual (fieldX w) (fieldKK w)) ∨
    (w.toNat / 4096 = 5 ∧ decodeWord w = decodeFamily5 w) ∨
    (w.toNat / 4096 = 6 ∧ decodeWord w = .setRegister (fieldX w) (fieldKK w)) ∨
    (w.toNat / 4096 = 7 ∧ decodeWord w = .addRegister (fieldX w) (fieldKK w)) ∨
    (w.toNat / 4096 = 8 ∧ decodeWord w = decodeFamily8 w) ∨
    (w.toNat / 4096 = 9 ∧ decodeWord w = decodeFamily9 w) ∨
    (w.toNat / 4096 = 10 ∧ decodeWord w = .setIndexRegister (fieldAddr w)) ∨
    (w.toNat / 4096 = 11 ∧ decodeWord w = .jumpWithOffset (fieldAddr w)) ∨
    (w.toNat / 4096 = 12 ∧ decodeWord w = .randomAnd (fieldX w) (fieldKK w)) ∨
    (w.toNat / 4096 = 13 ∧ decodeWord w = .draw (fieldX w) (fieldY w) (fieldN w)) ∨
    (w.toNat / 4096 = 14 ∧ decodeWord w = decodeFamilyE w) ∨
    (w.toNat / 4096 = 15 ∧ decodeWord w = decodeFamilyF w) := by
  have h := fieldOp_toNat w
  have hw := w.isLt
  unfold decodeWord
  split <;> simp_all [field_eq_iff]
  omega

end Sys2Proof
end

