-- ==== Sys2Proof/Laws/PerInstr.lean ====
section
/-! SUPPORT. A law said per instruction: the word of every operation carries its operands and its fixed bits where
30_encoding.md R61 and section 3 put them. -/

namespace Sys2Proof.Laws.Fields

/-- The fields of format `ADDR`, read from a word by R61's masks. -/
def CarriesADDR (w : Word) (op : Nibble) (addr : Addr) : Prop := fieldOp w = op ∧ fieldAddr w = addr

/-- The fields of formats `XKK` and `X`. -/
def CarriesXKK (w : Word) (op x : Nibble) (kk : Byte) : Prop := fieldOp w = op ∧ fieldX w = x ∧ fieldKK w = kk

/-- The fields of formats `XYN` and `XY`. -/
def CarriesXYN (w : Word) (op x y n : Nibble) : Prop :=
  fieldOp w = op ∧ fieldX w = x ∧ fieldY w = y ∧ fieldN w = n

theorem carries_formatADDR (op : Nibble) (addr : Addr) : CarriesADDR (formatADDR op addr) op addr := by
  simp [CarriesADDR]

theorem carries_formatXKK (op x : Nibble) (kk : Byte) : CarriesXKK (formatXKK op x kk) op x kk := by
  simp [CarriesXKK]

theorem carries_formatXYN (op x y n : Nibble) : CarriesXYN (formatXYN op x y n) op x y n := by
  simp [CarriesXYN]

/-- The operation's word carries its own operands and the fixed values of its row; an unknown operation's word is the word
it carries. -/
def Statement (i : Instr) : Prop :=
  match i with
  | .clearScreen => CarriesADDR (encode i) 0x0#4 0x0E0#12
  | .returnFromSubroutine => CarriesADDR (encode i) 0x0#4 0x0EE#12
  | .jump addr => CarriesADDR (encode i) 0x1#4 addr
  | .callSubroutine addr => CarriesADDR (encode i) 0x2#4 addr
  | .skipIfEqual x kk => CarriesXKK (encode i) 0x3#4 x kk
  | .skipIfNotEqual x kk => CarriesXKK (encode i) 0x4#4 x kk
  | .skipIfRegistersEqual x y => CarriesXYN (encode i) 0x5#4 x y 0x0#4
  | .setRegister x kk => CarriesXKK (encode i) 0x6#4 x kk
  | .addRegister x kk => CarriesXKK (encode i) 0x7#4 x kk
  | .copyRegister x y => CarriesXYN (encode i) 0x8#4 x y 0x0#4
  | .orRegister x y => CarriesXYN (encode i) 0x8#4 x y 0x1#4
  | .andRegister x y => CarriesXYN (encode i) 0x8#4 x y 0x2#4
  | .xorRegister x y => CarriesXYN (encode i) 0x8#4 x y 0x3#4
  | .addRegisterWithCarry x y => CarriesXYN (encode i) 0x8#4 x y 0x4#4
  | .subRegister x y => CarriesXYN (encode i) 0x8#4 x y 0x5#4
  | .shiftRight x y => CarriesXYN (encode i) 0x8#4 x y 0x6#4
  | .subRegisterReverse x y => CarriesXYN (encode i) 0x8#4 x y 0x7#4
  | .shiftLeft x y => CarriesXYN (encode i) 0x8#4 x y 0xE#4
  | .skipIfRegistersNotEqual x y => CarriesXYN (encode i) 0x9#4 x y 0x0#4
  | .setIndexRegister addr => CarriesADDR (encode i) 0xA#4 addr
  | .jumpWithOffset addr => CarriesADDR (encode i) 0xB#4 addr
  | .randomAnd x kk => CarriesXKK (encode i) 0xC#4 x kk
  | .draw x y n => CarriesXYN (encode i) 0xD#4 x y n
  | .skipIfKeyPressed x => CarriesXKK (encode i) 0xE#4 x 0x9E#8
  | .skipIfKeyNotPressed x => CarriesXKK (encode i) 0xE#4 x 0xA1#8
  | .loadDelayTimer x => CarriesXKK (encode i) 0xF#4 x 0x07#8
  | .waitForKey x => CarriesXKK (encode i) 0xF#4 x 0x0A#8
  | .setDelayTimer x => CarriesXKK (encode i) 0xF#4 x 0x15#8
  | .setSoundTimer x => CarriesXKK (encode i) 0xF#4 x 0x18#8
  | .addToIndex x => CarriesXKK (encode i) 0xF#4 x 0x1E#8
  | .setIndexToGlyph x => CarriesXKK (encode i) 0xF#4 x 0x29#8
  | .storeBcd x => CarriesXKK (encode i) 0xF#4 x 0x33#8
  | .storeRegisters x => CarriesXKK (encode i) 0xF#4 x 0x55#8
  | .loadRegisters x => CarriesXKK (encode i) 0xF#4 x 0x65#8
  | .unknown w => encode i = w

theorem clearScreen : Statement .clearScreen := ⟨rfl, rfl⟩

theorem returnFromSubroutine : Statement .returnFromSubroutine := ⟨rfl, rfl⟩

theorem jump (addr : Addr) : Statement (.jump addr) := carries_formatADDR _ _

theorem callSubroutine (addr : Addr) : Statement (.callSubroutine addr) := carries_formatADDR _ _

theorem skipIfEqual (x : Nibble) (kk : Byte) : Statement (.skipIfEqual x kk) := carries_formatXKK _ _ _

theorem skipIfNotEqual (x : Nibble) (kk : Byte) : Statement (.skipIfNotEqual x kk) := carries_formatXKK _ _ _

theorem skipIfRegistersEqual (x y : Nibble) : Statement (.skipIfRegistersEqual x y) := carries_formatXYN _ _ _ _

theorem setRegister (x : Nibble) (kk : Byte) : Statement (.setRegister x kk) := carries_formatXKK _ _ _

theorem addRegister (x : Nibble) (kk : Byte) : Statement (.addRegister x kk) := carries_formatXKK _ _ _

theorem copyRegister (x y : Nibble) : Statement (.copyRegister x y) := carries_formatXYN _ _ _ _

theorem orRegister (x y : Nibble) : Statement (.orRegister x y) := carries_formatXYN _ _ _ _

theorem andRegister (x y : Nibble) : Statement (.andRegister x y) := carries_formatXYN _ _ _ _

theorem xorRegister (x y : Nibble) : Statement (.xorRegister x y) := carries_formatXYN _ _ _ _

theorem addRegisterWithCarry (x y : Nibble) : Statement (.addRegisterWithCarry x y) := carries_formatXYN _ _ _ _

theorem subRegister (x y : Nibble) : Statement (.subRegister x y) := carries_formatXYN _ _ _ _

theorem shiftRight (x y : Nibble) : Statement (.shiftRight x y) := carries_formatXYN _ _ _ _

theorem subRegisterReverse (x y : Nibble) : Statement (.subRegisterReverse x y) := carries_formatXYN _ _ _ _

theorem shiftLeft (x y : Nibble) : Statement (.shiftLeft x y) := carries_formatXYN _ _ _ _

theorem skipIfRegistersNotEqual (x y : Nibble) : Statement (.skipIfRegistersNotEqual x y) := carries_formatXYN _ _ _ _

theorem setIndexRegister (addr : Addr) : Statement (.setIndexRegister addr) := carries_formatADDR _ _

theorem jumpWithOffset (addr : Addr) : Statement (.jumpWithOffset addr) := carries_formatADDR _ _

theorem randomAnd (x : Nibble) (kk : Byte) : Statement (.randomAnd x kk) := carries_formatXKK _ _ _

theorem draw (x y n : Nibble) : Statement (.draw x y n) := carries_formatXYN _ _ _ _

theorem skipIfKeyPressed (x : Nibble) : Statement (.skipIfKeyPressed x) := carries_formatXKK _ _ _

theorem skipIfKeyNotPressed (x : Nibble) : Statement (.skipIfKeyNotPressed x) := carries_formatXKK _ _ _

theorem loadDelayTimer (x : Nibble) : Statement (.loadDelayTimer x) := carries_formatXKK _ _ _

theorem waitForKey (x : Nibble) : Statement (.waitForKey x) := carries_formatXKK _ _ _

theorem setDelayTimer (x : Nibble) : Statement (.setDelayTimer x) := carries_formatXKK _ _ _

theorem setSoundTimer (x : Nibble) : Statement (.setSoundTimer x) := carries_formatXKK _ _ _

theorem addToIndex (x : Nibble) : Statement (.addToIndex x) := carries_formatXKK _ _ _

theorem setIndexToGlyph (x : Nibble) : Statement (.setIndexToGlyph x) := carries_formatXKK _ _ _

theorem storeBcd (x : Nibble) : Statement (.storeBcd x) := carries_formatXKK _ _ _

theorem storeRegisters (x : Nibble) : Statement (.storeRegisters x) := carries_formatXKK _ _ _

theorem loadRegisters (x : Nibble) : Statement (.loadRegisters x) := carries_formatXKK _ _ _

theorem unknown (w : Word) : Statement (.unknown w) := rfl

end Sys2Proof.Laws.Fields
end

