-- ==== Sys2Proof/Laws/Sprite.lean ====
section
/-! SUPPORT. `Draw` in closed form (44_display.md R162): its pixels are those `spriteCovers` names, and no two of its bits
fall on one pixel. -/

namespace Sys2Proof.Machine

/-- The pixels the loop of `Draw(x, y, n)` goes through. -/
def State.drawPixels (s : State) (x y n : Nibble) : List (Fin 32 × Fin 64) :=
  spritePixels (s.spriteRow y) (s.spriteCol x) (s.mem.readBytes s.i.toNat n.toNat)

theorem State.mem_drawPixels (s : State) (x y n : Nibble) (r : Fin 32) (c : Fin 64) :
    (r, c) ∈ s.drawPixels x y n ↔ spriteCovers s x y n r c := by
  unfold State.drawPixels
  rw [mem_spritePixels]
  constructor
  · rintro ⟨j, b, hj, hb, hbit, e⟩
    rw [Memory.readBytes_getElem] at hbit
    exact ⟨j, b, by simpa using hj, hb, hbit, congrArg (fun p => p.1.val) e, congrArg (fun p => p.2.val) e⟩
  · rintro ⟨j, b, hj, hb, hbit, hr, hc⟩
    refine ⟨j, b, by simpa using hj, hb, ?_, Prod.ext (Fin.ext hr) (Fin.ext hc)⟩
    rw [Memory.readBytes_getElem]
    exact hbit

theorem State.drawPixels_nodup (s : State) (x y n : Nibble) : (s.drawPixels x y n).Nodup :=
  spritePixels_nodup _ _ _ (by have := n.isLt; simp; omega)

/-- Everything `Draw` can do: the halt, or the loop over `drawPixels`. -/
theorem execDraw_cases (s : State) (x y n : Nibble) :
    ((0 < n.toNat ∧ s.i.toNat + n.toNat - 1 > 4095) ∧ execDraw x y n s = .next (s.halt .memOutOfBounds)) ∨
    ((n.toNat = 0 ∨ s.i.toNat + n.toNat - 1 ≤ 4095) ∧
      execDraw x y n s = .next ((s.writeFrame (plot (s.drawPixels x y n) s.fb false).1).writeFlag
        (plot (s.drawPixels x y n) s.fb false).2).advance) := by
  rcases s.spriteRows_cases n with ⟨h, e⟩ | ⟨h, e⟩
  · exact .inl ⟨h, by simp only [execDraw, e]⟩
  · exact .inr ⟨h, by simp only [execDraw, e, State.drawPixels]⟩

end Sys2Proof.Machine
end

