-- ==== Sys2Proof/Tests/Slice0.lean ====
section
/-! SUPPORT. Tests. Expected results are the rows of 95_test_vectors.md (named in each comment) or hand calculation from the
rule named; the last section shows, for every statement that has hypotheses, a state and operands that meet them. -/

namespace Sys2Proof.Tests

open Sys2Proof.Machine

/-- The baseline of 95_test_vectors.md: the launch state with the word at `PC = 0x0200`. -/
def launch (w : Word) : State := State.reset.placeWord w

/-- The state with `V[x] = b`. -/
def withV (x : Nibble) (b : Byte) (s : State) : State := s.writeV x b

/-- One step, and a question about the state it gives. -/
def after (s : State) (p : State → Bool) : Bool :=
  match step s with
  | .next t => p t
  | .fault _ => false
  | .refused _ => false

/-! ## Well-formedness: a term each check refuses (30_encoding.md R72) -/

/-- The unknown outcome carries an unknown word: none of these known words, one per family that has both kinds. -/
theorem test_wellformed_refuses :
    wellFormed (.unknown 0x00E0#16) = false ∧ wellFormed (.unknown 0x00EE#16) = false ∧
    wellFormed (.unknown 0x5120#16) = false ∧ wellFormed (.unknown 0x9AB0#16) = false ∧
    wellFormed (.unknown 0x812E#16) = false ∧ wellFormed (.unknown 0xE09E#16) = false ∧
    wellFormed (.unknown 0xE0A1#16) = false ∧ wellFormed (.unknown 0xF165#16) = false ∧
    wellFormed (.unknown 0x1000#16) = false ∧ wellFormed (.unknown 0xDABF#16) = false := by decide

/-- Each check of R72 accepts a word of its own item. -/
theorem test_wellformed_accepts :
    inUnknownFamily0 0x0123#16 = true ∧ inUnknownFamily59 0x5121#16 = true ∧ inUnknownFamily59 0x9AB1#16 = true ∧
    inUnknownFamily8 0x8ABF#16 = true ∧ inUnknownFamilyE 0xE09F#16 = true ∧ inUnknownFamilyF 0xF075#16 = true := by
  decide

/-! ## Decoding: words written out bit by bit from the encodings of the table, one for every constructor -/

theorem test_decode_family_0 :
    decodeWord 0b0000000011100000#16 = .clearScreen ∧ decodeWord 0b0000000011101110#16 = .returnFromSubroutine ∧
    decodeWord 0b0000000100100011#16 = .unknown 0x0123#16 := by decide

theorem test_decode_addr_families :
    decodeWord 0b0001101010111100#16 = .jump 0xABC#12 ∧ decodeWord 0b0010101010111100#16 = .callSubroutine 0xABC#12 ∧
    decodeWord 0b1010001011110000#16 = .setIndexRegister 0x2F0#12 ∧
    decodeWord 0b1011001100000000#16 = .jumpWithOffset 0x300#12 := by decide

theorem test_decode_xkk_families :
    decodeWord 0b0011101001111111#16 = .skipIfEqual 0xA#4 0x7F#8 ∧
    decodeWord 0b0100101001111111#16 = .skipIfNotEqual 0xA#4 0x7F#8 ∧
    decodeWord 0b0110101000101111#16 = .setRegister 0xA#4 0x2F#8 ∧
    decodeWord 0b0111000100000101#16 = .addRegister 0x1#4 0x05#8 ∧
    decodeWord 0b1100000100001111#16 = .randomAnd 0x1#4 0x0F#8 := by decide

theorem test_decode_families_5_9 :
    decodeWord 0b0101000100100000#16 = .skipIfRegistersEqual 0x1#4 0x2#4 ∧
    decodeWord 0b1001101010110000#16 = .skipIfRegistersNotEqual 0xA#4 0xB#4 ∧
    decodeWord 0b1001101010110001#16 = .unknown 0x9AB1#16 := by decide

theorem test_decode_family_8 :
    decodeWord 0b1000101010110000#16 = .copyRegister 0xA#4 0xB#4 ∧
    decodeWord 0b1000101010110001#16 = .orRegister 0xA#4 0xB#4 ∧
    decodeWord 0b1000101010110010#16 = .andRegister 0xA#4 0xB#4 ∧
    decodeWord 0b1000101010110011#16 = .xorRegister 0xA#4 0xB#4 ∧
    decodeWord 0b1000101010110100#16 = .addRegisterWithCarry 0xA#4 0xB#4 ∧
    decodeWord 0b1000101010110101#16 = .subRegister 0xA#4 0xB#4 ∧
    decodeWord 0b1000101010110110#16 = .shiftRight 0xA#4 0xB#4 ∧
    decodeWord 0b1000101010110111#16 = .subRegisterReverse 0xA#4 0xB#4 ∧
    decodeWord 0b1000101010111110#16 = .shiftLeft 0xA#4 0xB#4 ∧
    decodeWord 0b1000101010111111#16 = .unknown 0x8ABF#16 := by decide

theorem test_decode_family_D : decodeWord 0b1101101010111111#16 = .draw 0xA#4 0xB#4 0xF#4 := by decide

theorem test_decode_family_E :
    decodeWord 0b1110111110011110#16 = .skipIfKeyPressed 0xF#4 ∧
    decodeWord 0b1110000010100001#16 = .skipIfKeyNotPressed 0x0#4 ∧
    decodeWord 0b1110000110011111#16 = .unknown 0xE19F#16 := by decide

theorem test_decode_family_F :
    decodeWord 0b1111000000000111#16 = .loadDelayTimer 0x0#4 ∧ decodeWord 0b1111000000001010#16 = .waitForKey 0x0#4 ∧
    decodeWord 0b1111101000010101#16 = .setDelayTimer 0xA#4 ∧ decodeWord 0b1111000100011000#16 = .setSoundTimer 0x1#4 ∧
    decodeWord 0b1111001000011110#16 = .addToIndex 0x2#4 ∧ decodeWord 0b1111010000101001#16 = .setIndexToGlyph 0x4#4 ∧
    decodeWord 0b1111001100110011#16 = .storeBcd 0x3#4 ∧ decodeWord 0b1111001001010101#16 = .storeRegisters 0x2#4 ∧
    decodeWord 0b1111001001100101#16 = .loadRegisters 0x2#4 ∧ decodeWord 0b1111000000110000#16 = .unknown 0xF030#16 := by
  decide

/-- The table's bit numbering, and a byte sequence too short for a word. -/
theorem test_decode_bytes :
    decodeTableWord 16 0x8AB4 = some (.addRegisterWithCarry 0xA#4 0xB#4) ∧ decode [0x12#8] = .error .truncated ∧
    decode [0x12#8, 0x0A#8, 0x60#8] = .ok (.jump 0x20A#12, [0x60#8]) := by decide

/-! ## Register file and ALU (95 part 3, ALU rows) -/

/-- ALU-1. -/
theorem test_setRegister : after (launch 0x6A2F#16) (fun t => t.readV 0xA#4 == 0x2F#8 && t.pc == 0x0202#16) = true := by
  decide

/-- ALU-4: wraps, `VF` stays. -/
theorem test_addRegister_wraps : after (withV 1#4 0xFE#8 (launch 0x7105#16))
    (fun t => t.readV 1#4 == 0x03#8 && t.readV 0xF#4 == 0#8) = true := by decide

/-- ALU-8. -/
theorem test_copyRegister : after (withV 2#4 0x55#8 (launch 0x8120#16)) (fun t => t.readV 1#4 == 0x55#8) = true := by
  decide

/-- ALU-11: `VF` stays 1. -/
theorem test_orRegister : after (withV 0xF#4 1#8 (withV 2#4 0x0F#8 (withV 1#4 0xF0#8 (launch 0x8121#16))))
    (fun t => t.readV 1#4 == 0xFF#8 && t.readV 0xF#4 == 1#8) = true := by decide

/-- ALU-12. -/
theorem test_andRegister : after (withV 0xF#4 1#8 (withV 2#4 0x3C#8 (withV 1#4 0xF3#8 (launch 0x8122#16))))
    (fun t => t.readV 1#4 == 0x30#8 && t.readV 0xF#4 == 1#8) = true := by decide

/-- ALU-13. -/
theorem test_xorRegister : after (withV 0xF#4 1#8 (withV 2#4 0x0F#8 (withV 1#4 0xFF#8 (launch 0x8123#16))))
    (fun t => t.readV 1#4 == 0xF0#8 && t.readV 0xF#4 == 1#8) = true := by decide

/-- ALU-16 (S1). -/
theorem test_addWithCarry : after (withV 2#4 0x0A#8 (withV 1#4 0xFA#8 (launch 0x8124#16)))
    (fun t => t.readV 1#4 == 4#8 && t.readV 0xF#4 == 1#8) = true := by decide

/-- ALU-24: `x = F`, the carry is what stays. -/
theorem test_addWithCarry_into_VF : after (withV 1#4 0x0A#8 (withV 0xF#4 0xFA#8 (launch 0x8F14#16)))
    (fun t => t.readV 0xF#4 == 1#8) = true := by decide

/-- ALU-29: borrow. -/
theorem test_subRegister_borrow : after (withV 2#4 0x0A#8 (withV 1#4 0x05#8 (launch 0x8125#16)))
    (fun t => t.readV 1#4 == 0xFB#8 && t.readV 0xF#4 == 0#8) = true := by decide

/-- ALU-30: equal operands, flag 1. -/
theorem test_subRegister_equal : after (withV 2#4 0x07#8 (withV 1#4 0x07#8 (launch 0x8125#16)))
    (fun t => t.readV 1#4 == 0#8 && t.readV 0xF#4 == 1#8) = true := by decide

/-- ALU-42: `V[y]` is ignored. -/
theorem test_shiftRight_ignores_y : after (withV 2#4 0xFF#8 (withV 1#4 0x04#8 (launch 0x8126#16)))
    (fun t => t.readV 1#4 == 2#8 && t.readV 2#4 == 0xFF#8 && t.readV 0xF#4 == 0#8) = true := by decide

/-- ALU-43: `x = F`. -/
theorem test_shiftRight_VF : after (withV 0xF#4 0x03#8 (launch 0x8F06#16)) (fun t => t.readV 0xF#4 == 1#8) = true := by
  decide

/-- ALU-46. -/
theorem test_subRegisterReverse : after (withV 2#4 0x05#8 (withV 1#4 0x0A#8 (launch 0x8127#16)))
    (fun t => t.readV 1#4 == 0xFB#8 && t.readV 0xF#4 == 0#8) = true := by decide

/-- ALU-52. -/
theorem test_shiftLeft : after (withV 1#4 0x81#8 (launch 0x810E#16))
    (fun t => t.readV 1#4 == 2#8 && t.readV 0xF#4 == 1#8) = true := by decide

/-- ALU-60: `kk = 0` gives 0 whatever the draw. -/
theorem test_randomAnd_zero : exec (.randomAnd 1#4 0#8) State.reset =
    .next ((State.reset.drawByte.2.writeV 1#4 0#8).advance) := by
  simp [exec, execRandomAnd]

/-! ## Control transfer (CF rows) -/

/-- CF-4: to 0x1000; `SP` counts down. -/
theorem test_return_highest : after { launch 0x00EE#16 with
      sp := 16, stack := (Vector.replicate 16 0#16).set 15 0x0FFE#16 }
    (fun t => t.pc == 0x1000#16 && t.sp == 15 && t.running) = true := by decide

/-- CF-2: empty stack. -/
theorem test_return_underflow : after (launch 0x00EE#16)
    (fun t => t.pc == 0x0200#16 && t.sp == 0 && !t.running && t.haltCode == 3#3) = true := by decide

/-- CF-5. -/
theorem test_jump : after (launch 0x1ABC#16) (fun t => t.pc == 0x0ABC#16) = true := by decide

/-- CF-10: the call's own address is pushed. -/
theorem test_call : after (launch 0x2400#16)
    (fun t => t.pc == 0x0400#16 && t.sp == 1 && t.stack[0] == 0x0200#16) = true := by decide

/-- CF-12: the seventeenth call. -/
theorem test_call_overflow : after { launch 0x2400#16 with sp := 16 }
    (fun t => t.pc == 0x0200#16 && t.sp == 16 && !t.running && t.haltCode == 2#3) = true := by decide

/-- CF-15: the largest `PC`. -/
theorem test_jumpWithOffset_largest : after (withV 0#4 0xFF#8 (launch 0xBFFF#16)) (fun t => t.pc == 0x10FE#16) = true := by
  decide

/-- CF-16: the offset is `V0`, not `Vx`. -/
theorem test_jumpWithOffset_V0 : after (withV 2#4 0x10#8 (launch 0xB2FE#16)) (fun t => t.pc == 0x02FE#16) = true := by
  decide

/-- CF-18. -/
theorem test_skipIfEqual : after (withV 3#4 0x2A#8 (launch 0x332A#16)) (fun t => t.pc == 0x0204#16) = true := by decide

/-- CF-19. -/
theorem test_skipIfEqual_not : after (withV 3#4 0x2B#8 (launch 0x332A#16)) (fun t => t.pc == 0x0202#16) = true := by
  decide

/-- CF-25. -/
theorem test_skipIfNotEqual : after (withV 3#4 0x2A#8 (launch 0x432A#16)) (fun t => t.pc == 0x0202#16) = true := by decide

/-- CF-28. -/
theorem test_skipIfRegistersEqual : after (withV 2#4 0x11#8 (withV 1#4 0x10#8 (launch 0x5120#16)))
    (fun t => t.pc == 0x0202#16) = true := by decide

/-- CF-30. -/
theorem test_skipIfRegistersNotEqual : after (withV 2#4 0x11#8 (withV 1#4 0x10#8 (launch 0x9120#16)))
    (fun t => t.pc == 0x0204#16) = true := by decide

/-- S6: the report, and two bytes on. -/
theorem test_unknown : after (launch 0xFFFF#16) (fun t => t.pc == 0x0202#16 && t.running && t.unkValid &&
    t.unkWord == some 0xFFFF#16 && t.unkPC == some 0x0200#16) = true := by decide

/-! ## Index register and memory (MEM rows) -/

/-- MEM-1. -/
theorem test_setIndexRegister : after (launch 0xA2F0#16) (fun t => t.i == 0x02F0#16) = true := by decide

/-- MEM-4: passes 0x0FFF, kept. -/
theorem test_addToIndex : after (withV 2#4 0x20#8 { launch 0xF21E#16 with i := 0x0FF0#16 })
    (fun t => t.i == 0x1010#16 && t.readV 0xF#4 == 0#8) = true := by decide

/-- MEM-6: 16 bits. -/
theorem test_addToIndex_wraps : after (withV 2#4 0x01#8 { launch 0xF21E#16 with i := 0xFFFF#16 })
    (fun t => t.i == 0#16) = true := by decide

/-- MEM-9: the high nibble is ignored. -/
theorem test_setIndexToGlyph : after (withV 4#4 0x1A#8 (launch 0xF429#16)) (fun t => t.i == 0x0082#16) = true := by decide

/-- MEM-17: the last legal base. -/
theorem test_storeBcd : after (withV 3#4 0x7B#8 { launch 0xF333#16 with i := 0x0FFD#16 })
    (fun t => t.mem.read 0xFFD == 1#8 && t.mem.read 0xFFE == 2#8 && t.mem.read 0xFFF == 3#8 && t.running) = true := by
  decide

/-- MEM-18: no byte written. -/
theorem test_storeBcd_outside : after (withV 3#4 0x7B#8 { launch 0xF333#16 with i := 0x0FFE#16 })
    (fun t => t.mem.read 0xFFE == 0#8 && t.mem.read 0xFFF == 0#8 && t.pc == 0x0200#16 && t.haltCode == 4#3) = true := by
  decide

/-- MEM-20. -/
theorem test_storeRegisters : after (withV 3#4 0x44#8 (withV 2#4 0x33#8 (withV 1#4 0x22#8 (withV 0#4 0x11#8
      { launch 0xF255#16 with i := 0x0400#16 }))))
    (fun t => t.mem.read 0x400 == 0x11#8 && t.mem.read 0x401 == 0x22#8 && t.mem.read 0x402 == 0x33#8 &&
      t.mem.read 0x403 == 0#8 && t.i == 0x0400#16) = true := by decide

/-- MEM-24, EV-24: one byte too far, none written. -/
theorem test_storeRegisters_outside : after (withV 0#4 0xF0#8 { launch 0xFF55#16 with i := 0x0FF1#16 })
    (fun t => t.mem.read 0xFF1 == 0#8 && !t.running && t.haltCode == 4#3) = true := by decide

/-- MEM-31: it loads its own bytes. -/
theorem test_loadRegisters : after { launch 0xF165#16 with i := 0x0200#16 }
    (fun t => t.readV 0#4 == 0xF1#8 && t.readV 1#4 == 0x65#8 && t.readV 2#4 == 0#8) = true := by decide

/-- MEM-28: no register written. -/
theorem test_loadRegisters_outside : after (withV 0#4 0x01#8 { launch 0xF165#16 with i := 0x0FFF#16 })
    (fun t => t.readV 0#4 == 1#8 && t.haltCode == 4#3) = true := by decide

/-! ## Display (DSP rows) -/

/-- The baseline of a drawing test: `DRW V0, V1, 1` with one sprite row at 0x300. -/
def drawing (row : Byte) : State :=
  { launch 0xD011#16 with i := 0x0300#16, mem := (launch 0xD011#16).mem.write 0x300 row }

/-- DSP-1. -/
theorem test_clearScreen : after { launch 0x00E0#16 with fb := Frame.off.toggle 5 7 }
    (fun t => t.fb.pixel 5 7 == false && t.fbChanged) = true := by decide

/-- DSP-7: from column 60 it wraps to columns 0 to 3. -/
theorem test_draw_wraps : after (withV 0#4 0x3C#8 (drawing 0xFF#8))
    (fun t => t.fb.pixel 0 60 && t.fb.pixel 0 63 && t.fb.pixel 0 0 && t.fb.pixel 0 3 && !t.fb.pixel 0 4 &&
      !t.fb.pixel 0 59 && t.readV 0xF#4 == 0#8) = true := by decide

/-- DSP-11: one pixel erased, one set. -/
theorem test_draw_collision : after { drawing 0xC0#8 with fb := Frame.off.toggle 0 0 }
    (fun t => !t.fb.pixel 0 0 && t.fb.pixel 0 1 && t.readV 0xF#4 == 1#8) = true := by decide

/-! ## Timers and keypad (TK rows) -/

/-- TK-1. -/
theorem test_loadDelayTimer : after { launch 0xF507#16 with dt := 0x3C#8 } (fun t => t.readV 5#4 == 0x3C#8) = true := by
  decide

/-- TK-3. -/
theorem test_setDelayTimer : after (withV 5#4 0x3C#8 (launch 0xF515#16))
    (fun t => t.dt == 0x3C#8 && t.st == 0#8) = true := by decide

/-- TK-5. -/
theorem test_setSoundTimer : after (withV 1#4 0x02#8 (launch 0xF118#16))
    (fun t => t.st == 2#8 && t.dt == 0#8 && t.soundOn) = true := by decide

/-- TK-8: no key, nothing written. -/
theorem test_waitForKey_none : after (launch 0xF30A#16)
    (fun t => t.pc == 0x0200#16 && t.readV 3#4 == 0#8 && t.running) = true := by decide

/-- TK-9: the lowest of keys 4 and 7. -/
theorem test_waitForKey_lowest : after { launch 0xF30A#16 with keys := 0x0090#16 }
    (fun t => t.readV 3#4 == 4#8 && t.pc == 0x0202#16) = true := by decide

/-- TK-17: the low nibble is the key. -/
theorem test_skipIfKeyPressed : after (withV 2#4 0x17#8 { launch 0xE29E#16 with keys := 0x0080#16 })
    (fun t => t.pc == 0x0204#16) = true := by decide

/-- TK-19. -/
theorem test_skipIfKeyNotPressed : after (withV 2#4 0x07#8 { launch 0xE2A1#16 with keys := 0x0080#16 })
    (fun t => t.pc == 0x0202#16) = true := by decide

/-! ## Events (EV rows) -/

/-- EV-11: the fetch from 0x0FFF. -/
theorem test_fetch_outside : after { launch 0x6000#16 with pc := 0x0FFF#16 }
    (fun t => t.pc == 0x0FFF#16 && !t.running && t.haltCode == 1#3) = true := by decide

/-- EV-23: an odd address. -/
theorem test_fetch_odd : after { launch 0x0000#16 with pc := 0x0203#16, mem := [(0x203, 0x60#8), (0x204, 0x2A#8)] }
    (fun t => t.readV 0#4 == 0x2A#8 && t.pc == 0x0205#16) = true := by decide

/-- EV-17: stop and step at one edge. -/
theorem test_edge_stop_wins : after (withV 0#4 5#8 { launch 0xF015#16 with
      pending := [{ stopReq := true, step := true }] })
    (fun t => t.pc == 0x0200#16 && t.dt == 0#8 && !t.running && t.haltCode == 5#3) = true := by decide

/-- EV-18: the step, then the tick. -/
theorem test_edge_step_then_tick : after (withV 0#4 5#8 { launch 0xF015#16 with
      pending := [{ step := true, timerTick := true }] })
    (fun t => t.pc == 0x0202#16 && t.dt == 4#8) = true := by decide

/-- EV-19: the load, the start, the step. -/
theorem test_edge_load_start_step : after { State.reset with
      mem := [(0x200, 0x60#8), (0x201, 0x07#8)]
      pending := [{ ldWe := true, ldAddr := 0x201#12, ldData := 0x09#8, start := true, step := true }] }
    (fun t => t.readV 0#4 == 9#8 && t.pc == 0x0202#16 && t.running) = true := by decide

/-- EV-20: reset alone. -/
theorem test_edge_reset : after { launch 0xFFFF#16 with
      pending := [{ rst := true, step := true, start := true }], i := 5#16 }
    (fun t => t.i == 0#16 && !t.running && t.mem == [] && t.pc == 0x0200#16 && !t.unkValid) = true := by decide

/-- TT-1. -/
theorem test_timerTick : after { launch 0x0000#16 with dt := 3#8, st := 1#8, pending := [{ timerTick := true }] }
    (fun t => t.dt == 2#8 && t.st == 0#8 && !t.soundOn && t.pc == 0x0200#16) = true := by decide

/-- Right after reset the core is halted: an edge with `step` does nothing (R80). -/
theorem test_reset_does_not_step : step State.reset = .next State.reset := rfl

/-- The placed word is the next to run. -/
theorem test_withFetchWord : after (State.reset.withFetchWord 16 0x6A2F) (fun t => t.readV 0xA#4 == 0x2F#8) = true := by
  decide

/-! ## Witnesses: for every statement with hypotheses, a state and operands that meet them, at the edges of their ranges -/

/-- DecodeOfEncode: a known and an unknown operation are well-formed. -/
theorem witness_DecodeOfEncode : wellFormed (.draw 0xA#4 0xB#4 0xF#4) = true ∧ wellFormed (.unknown 0x5121#16) = true := by
  decide

/-- LogicIsBitwiseWithoutFlag: the lowest and the highest bit. -/
theorem witness_LogicIsBitwise : 0 < 8 ∧ 7 < 8 ∧ (0#4 : Nibble) ≠ 1#4 := by decide

/-- AddWithCarrySetsFlagLast: both sides of the carry, sums 255 and 256, with `x` other than F, and `x = F`. -/
theorem witness_AddWithCarry :
    after (withV 2#4 1#8 (withV 1#4 0xFE#8 (launch 0x8124#16))) (fun t => t.readV 1#4 == 0xFF#8 && t.readV 0xF#4 == 0#8)
      = true ∧
    after (withV 2#4 1#8 (withV 1#4 0xFF#8 (launch 0x8124#16))) (fun t => t.readV 1#4 == 0#8 && t.readV 0xF#4 == 1#8)
      = true ∧ (1#4 : Nibble) ≠ 0xF#4 := by decide

/-- SubtractionsSetNoBorrow, ShiftsSetTheBitShiftedOut: a destination other than F, and a register that is neither. -/
theorem witness_Subtractions_Shifts : (1#4 : Nibble) ≠ 0xF#4 ∧ (2#4 : Nibble) ≠ 1#4 ∧ (2#4 : Nibble) ≠ 0xF#4 := by decide

/-- RandomAndMasksTheDraw: a 0 bit of the mask. -/
theorem witness_RandomAnd : (0x0F#8 : Byte).getLsbD 7 = false ∧ (1#4 : Nibble) ≠ 0#4 := by decide

/-- CallPushesItsOwnAddress: 0 and 15 entries are room, 16 are not. -/
theorem witness_Call : (launch 0x2400#16).sp.val < 16 ∧ ({ launch 0x2400#16 with sp := 15 } : State).sp.val < 16 ∧
    ({ launch 0x2400#16 with sp := 16 } : State).sp.val = 16 := by decide

/-- CF-11: the sixteenth entry. -/
theorem witness_Call_sixteenth : after { launch 0x2400#16 with sp := 15 }
    (fun t => t.stack[15] == 0x0200#16 && t.sp == 16 && t.pc == 0x0400#16 && t.running) = true := by decide

/-- ReturnGoesPastTheCall: 1 and 16 entries, and none. -/
theorem witness_Return : 0 < ({ launch 0x00EE#16 with sp := 1 } : State).sp.val ∧
    0 < ({ launch 0x00EE#16 with sp := 16 } : State).sp.val ∧ (launch 0x00EE#16).sp.val = 0 := by decide

/-- CF-1: one entry. -/
theorem witness_Return_last : after { launch 0x00EE#16 with sp := 1, stack := (Vector.replicate 16 0#16).set 0 0x0400#16 }
    (fun t => t.pc == 0x0402#16 && t.sp == 0 && t.running) = true := by decide

/-- RegisterSkips: a non-zero low nibble. -/
theorem witness_RegisterSkips : (0x1#4 : Nibble) ≠ 0x0#4 ∧
    decodeWord (orXYN 0x5000#16 1#4 2#4 1#4) = .unknown 0x5121#16 := by decide

/-- UnknownIsReportedAndSkipped: a running core that fetches an unknown word. -/
theorem witness_Unknown_step : (launch 0xFFFF#16).running = true ∧ (launch 0xFFFF#16).fetch = some 0xFFFF#16 ∧
    isUnknownWord 0xFFFF#16 = true := by decide

/-- UnknownIsReportedAndSkipped, last clause: an edge without a step after a report ends it. -/
theorem witness_Unknown_period : after { launch 0xFFFF#16 with
      report := some ⟨0x0200#16, 0xFFFF#16⟩, pending := [{ timerTick := true }] }
    (fun t => !t.unkValid && t.pc == 0x0200#16) = true := by decide

/-- StoreBcdWritesThreeDigits: the last base inside, and the first outside. -/
theorem witness_StoreBcd : ({ State.reset with i := 0x0FFD#16 } : State).i.toNat + 2 ≤ 4095 ∧
    ({ State.reset with i := 0x0FFE#16 } : State).i.toNat + 2 > 4095 := by decide

/-- StoreRegistersWritesTheRange, LoadRegistersReadsTheRange: one register and sixteen, at the edge and past it. -/
theorem witness_Ranges : ({ State.reset with i := 0x0FFF#16 } : State).i.toNat + (0x0#4 : Nibble).toNat ≤ 4095 ∧
    ({ State.reset with i := 0x1000#16 } : State).i.toNat + (0x0#4 : Nibble).toNat > 4095 ∧
    ({ State.reset with i := 0x0FF0#16 } : State).i.toNat + (0xF#4 : Nibble).toNat ≤ 4095 ∧
    ({ State.reset with i := 0x0FF1#16 } : State).i.toNat + (0xF#4 : Nibble).toNat > 4095 := by decide

/-- MEM-21 and MEM-27: one register at the last address. -/
theorem witness_Ranges_last :
    after (withV 0#4 0xAB#8 { launch 0xF055#16 with i := 0x0FFF#16 })
      (fun t => t.mem.read 0xFFF == 0xAB#8 && t.running && t.pc == 0x0202#16) = true ∧
    after { launch 0xF065#16 with i := 0x0FFF#16 } (fun t => t.readV 0#4 == 0#8 && t.running && t.pc == 0x0202#16)
      = true := by decide

/-- DrawTogglesExactlyTheSprite: no rows with `I` outside, the last row inside, and one row outside. -/
theorem witness_Draw : ((0x0#4 : Nibble).toNat = 0) ∧
    ({ State.reset with i := 0x0FFF#16 } : State).i.toNat + (0x1#4 : Nibble).toNat - 1 ≤ 4095 ∧
    0 < (0x2#4 : Nibble).toNat ∧
    ({ State.reset with i := 0x0FFF#16 } : State).i.toNat + (0x2#4 : Nibble).toNat - 1 > 4095 := by decide

/-- DSP-13 and DSP-15 as steps. -/
theorem witness_Draw_edges :
    after (withV 0xF#4 1#8 { launch 0xD010#16 with i := 0x1000#16 })
      (fun t => t.readV 0xF#4 == 0#8 && t.running && t.pc == 0x0202#16) = true ∧
    after (withV 0xF#4 1#8 { launch 0xD012#16 with i := 0x0FFF#16 })
      (fun t => t.readV 0xF#4 == 1#8 && !t.running && t.haltCode == 4#3 && t.pc == 0x0200#16) = true := by decide

/-- DrawTogglesExactlyTheSprite: a pixel under the sprite, wrapped, on before the draw; and one not under it. -/
theorem witness_Draw_covers : spriteCovers (withV 0#4 0x3C#8 (drawing 0xFF#8)) 0#4 1#4 1#4 0 3 ∧
    ¬ spriteCovers (withV 0#4 0x3C#8 (drawing 0xFF#8)) 0#4 1#4 1#4 1 3 ∧ (Frame.off.toggle 0 3).pixel 0 3 = true := by
  refine ⟨⟨0, 7, by decide, by decide, by decide, by decide, by decide⟩, ?_, by decide⟩
  rintro ⟨j, b, hj, _, _, hr, _⟩
  have hj0 : j = 0 := Nat.lt_one_iff.mp hj
  subst hj0
  exact absurd hr (by decide)

/-- DrawTwiceRestoresTheFrame: coordinates other than `VF`. -/
theorem witness_DrawTwice : (0x0#4 : Nibble) ≠ 0xF#4 ∧ (0x1#4 : Nibble) ≠ 0xF#4 ∧
    (drawing 0xFF#8).i.toNat + (0x1#4 : Nibble).toNat - 1 ≤ 4095 ∧
    spriteCovers (drawing 0xFF#8) 0#4 1#4 1#4 0 0 ∧ (drawing 0xFF#8).fb.pixel 0 0 = false :=
  ⟨by decide, by decide, by decide, ⟨0, 0, by decide, by decide, by decide, by decide, by decide⟩, by decide⟩

/-- WaitForKeyTakesTheLowest: no key; key 0 with all others; key F alone (TK-10, TK-12). -/
theorem witness_WaitForKey :
    (∀ k : Nibble, (launch 0xF30A#16).keys.getLsbD k.toNat = false) ∧
    ((0xFFFF#16 : Word).getLsbD 0 = true ∧ ∀ j : Nibble, j.toNat < 0 → (0xFFFF#16 : Word).getLsbD j.toNat = false) ∧
    ((0x8000#16 : Word).getLsbD 15 = true ∧
      ∀ j : Nibble, j.toNat < 15 → (0x8000#16 : Word).getLsbD j.toNat = false) := by decide

/-- KeySkips: a key number above 15 whose low nibble is pressed (TK-18). -/
theorem witness_KeySkips : (0x8000#16 : Word).getLsbD ((0xFF#8 : Byte).toNat % 16) = true ∧
    (0x0001#16 : Word).getLsbD ((0x07#8 : Byte).toNat % 16) = false := by decide

/-- RegistersOutsideTheDestinationKept: a flag-setting operation and a register it does not write. -/
theorem witness_RegistersOutside : mayWriteV (.addRegisterWithCarry 1#4 2#4) 2#4 = false ∧
    mayWriteV (.loadRegisters 2#4) 3#4 = false ∧ ∃ t, exec (.addRegisterWithCarry 1#4 2#4) State.reset = .next t :=
  ⟨by decide, by decide, _, rfl⟩

/-- MemoryOutsideTheStoreKept: the addresses just below and just above the stored bytes. -/
theorem witness_MemoryOutside : (0x2FF < ({ State.reset with i := 0x0300#16 } : State).base) ∧
    ({ State.reset with i := 0x0300#16 } : State).base + storedCount (.storeBcd 3#4) ≤ 0x303 ∧
    ∃ t, exec (.storeBcd 3#4) { State.reset with i := 0x0300#16 } = .next t :=
  ⟨by decide, by decide, _, rfl⟩

/-- StackChangedByCallAndReturnOnly, IndexAndTimersWrittenByTheirOwnOnly, FrameWrittenByDisplayOnly, InputsAndReportKept:
an operation that is none of the exceptions, and that completes. -/
theorem witness_Frames : (∀ a, (.setRegister 1#4 2#8 : Instr) ≠ .callSubroutine a) ∧
    (.setRegister 1#4 2#8 : Instr) ≠ .returnFromSubroutine ∧ ¬ writesFrame (.setRegister 1#4 2#8) ∧
    ¬ writesIndex (.setRegister 1#4 2#8) ∧ (∀ x, (.setRegister 1#4 2#8 : Instr) ≠ .setDelayTimer x) ∧
    (∀ x, (.setRegister 1#4 2#8 : Instr) ≠ .setSoundTimer x) ∧ (∀ w, (.setRegister 1#4 2#8 : Instr) ≠ .unknown w) ∧
    (∀ x kk, (.setRegister 1#4 2#8 : Instr) ≠ .randomAnd x kk) ∧
    ∃ t, exec (.setRegister 1#4 2#8) State.reset = .next t :=
  ⟨by simp, by simp, by simp [writesFrame], by simp [writesIndex], by simp, by simp, by simp, by simp, _, rfl⟩

/-- HaltsArePreciseAndOnlyForTheirCause: each of its cases happens. -/
theorem witness_Halts :
    (∃ t, exec (.jump 0x300#12) State.reset = .next t ∧ t.running = State.reset.running) ∧
    (∃ t, exec (.callSubroutine 0x300#12) { State.reset with sp := 16 } = .next t ∧ t.haltReason = .stackOverflow) ∧
    (∃ t, exec .returnFromSubroutine State.reset = .next t ∧ t.haltReason = .stackUnderflow) ∧
    (∃ t, exec (.draw 0#4 1#4 2#4) { State.reset with i := 0x0FFF#16 } = .next t ∧ t.haltReason = .memOutOfBounds) ∧
    (∃ t, exec (.storeBcd 0#4) { State.reset with i := 0x0FFE#16 } = .next t ∧ t.haltReason = .memOutOfBounds) ∧
    (∃ t, exec (.storeRegisters 0#4) { State.reset with i := 0x1000#16 } = .next t ∧ t.haltReason = .memOutOfBounds) ∧
    (∃ t, exec (.loadRegisters 1#4) { State.reset with i := 0x0FFF#16 } = .next t ∧ t.haltReason = .memOutOfBounds) :=
  ⟨⟨_, rfl, rfl⟩, ⟨_, rfl, rfl⟩, ⟨_, rfl, rfl⟩, ⟨_, rfl, rfl⟩, ⟨_, rfl, rfl⟩, ⟨_, rfl, rfl⟩, ⟨_, rfl, rfl⟩⟩

/-- KeypadMattersToThreeOnly. -/
theorem witness_Keypad : ¬ readsKeys (.loadDelayTimer 0#4) := by simp [readsKeys]

/-- SoundTimerNeverRead. -/
theorem witness_SoundTimer : ∀ x, (.loadDelayTimer 0#4 : Instr) ≠ .setSoundTimer x := by simp

/-- StaleStackEntriesNeverRead: one valid entry, the same in both; a stale entry that differs; the return completes. -/
theorem witness_Stale :
    let s : State := { State.reset with sp := 1 }
    let s' : State := { s with stack := s.stack.set 7 0x0999#16 }
    (∀ j : Fin 16, j.val < s.sp.val → s'.stack[j.val] = s.stack[j.val]) ∧ s' = { s with stack := s'.stack } ∧
    s'.stack[7] ≠ s.stack[7] ∧ (∃ t, exec .returnFromSubroutine s = .next t) ∧
    ∃ t', exec .returnFromSubroutine s' = .next t' :=
  ⟨by decide, rfl, by decide, ⟨_, rfl⟩, ⟨_, rfl⟩⟩

/-- MemoryWriteThenRead: the last address, a neighbour, and a memory in canonical form. -/
theorem witness_MemoryWrite : 4094 ≠ 4095 ∧ Memory.wf [(0x200, 0x60#8), (0x201, 0x2A#8)] ∧ 4095 < 4096 := by decide

/-- TransfersAreAllOrNothing: one byte and two, at the last address and past it. -/
theorem witness_Transfers : 1 ≤ 1 ∧ 1 ≤ [0xAB#8].length ∧ 4095 + 1 - 1 ≤ 4095 ∧ 4095 + 2 - 1 > 4095 ∧
    4095 + [0xAB#8].length - 1 ≤ 4095 ∧ 4096 + [0xAB#8].length - 1 > 4095 := by decide

/-- StoredBytesAreFetched: program P6, the store at 0x206 of the word at 0x208. -/
theorem witness_StoredBytes :
    let s : State := { launch 0xF155#16 with pc := 0x0206#16, i := 0x0208#16 }
    s.i.toNat + (1#4 : Nibble).toNat ≤ 4095 ∧ (0#4 : Nibble).toNat + 1 ≤ (1#4 : Nibble).toNat ∧
    ∃ t, exec (.storeRegisters 1#4) s = .next t ∧ t.pc.toNat = s.i.toNat + (0#4 : Nibble).toNat :=
  ⟨by decide, by decide, _, rfl, rfl⟩

/-- StepRunsTheDecodedInstruction: a running core at 0x0200, and at the last address a fetch can begin at. -/
theorem witness_StepRuns : (launch 0x6A2F#16).running = true ∧ (launch 0x6A2F#16).pending = [] ∧
    (launch 0x6A2F#16).pc.toNat + 1 ≤ 4095 ∧
    decode [(launch 0x6A2F#16).mem.read 0x200, (launch 0x6A2F#16).mem.read 0x201] = .ok (.setRegister 0xA#4 0x2F#8, []) ∧
    ({ launch 0x6A2F#16 with pc := 0x0FFE#16 } : State).pc.toNat + 1 ≤ 4095 ∧
    decode [({ launch 0x6A2F#16 with pc := 0x0FFE#16 } : State).mem.read 0xFFE, 0#8] = .ok (.unknown 0#16, []) := by decide

/-- StepRunsTheDecodedInstruction, last clause: the host's own edge with `step` and another keypad. -/
theorem witness_StepRuns_listed : ({ launch 0xF30A#16 with pending := [{ step := true, keys := 0x0400#16 }] } : State).pending
      = { step := true, keys := 0x0400#16 } :: [] ∧
    after { launch 0xF30A#16 with pending := [{ step := true, keys := 0x0400#16 }] } (fun t => t.readV 3#4 == 0xA#8)
      = true := by decide

/-- FetchOutOfBoundsHalts: the first address that fails, and the last that passes. -/
theorem witness_FetchOutOfBounds : ({ launch 0#16 with pc := 0x0FFF#16 } : State).running = true ∧
    ({ launch 0#16 with pc := 0x0FFF#16 } : State).pc.toNat + 1 > 4095 ∧
    ({ launch 0#16 with pc := 0x0FFE#16 } : State).pc.toNat + 1 ≤ 4095 := by decide

/-- HaltedCoreDoesNotStep, LoaderWritesOnlyWhileHalted, StartAndStopEvents: halted and running, from reset, after a stop and
after a fatal halt. -/
theorem witness_Events : State.reset.running = false ∧ State.reset.haltReason = .none ∧ (launch 0#16).running = true ∧
    ((launch 0#16).halt .stop).running = false ∧ ((launch 0#16).halt .stop).haltReason = .stop ∧
    ((launch 0#16).halt .stackOverflow).haltReason.fatal = true := by decide

/-- StopWinsOverStep, EdgeInputsActInOrder, ResetLeavesTheResetState: an edge of each kind is pending. -/
theorem witness_Edges :
    (let p : Inputs := { stopReq := true, step := true }
     let s : State := { launch 0#16 with pending := [p] }
     s.running = true ∧ s.pending = p :: [] ∧ p.rst = false ∧ p.stopReq = true) ∧
    (let p : Inputs := { step := true, timerTick := true, ldWe := true, start := true }
     let s : State := { State.reset with pending := [p] }
     s.pending = p :: [] ∧ p.rst = false) ∧
    (let p : Inputs := { rst := true, step := true }
     let s : State := { launch 0#16 with pending := [p] }
     s.pending = p :: [] ∧ p.rst = true) := by decide

/-- FatalHaltLeftOnlyByReset: EV-15 and a load. -/
theorem witness_FatalHalt : Event.reset ∉ [Event.start, .stop, .step, .load 0x200#12 0x12#8] ∧
    ((launch 0x00EE#16).halt .stackUnderflow).running = false ∧
    ((launch 0x00EE#16).halt .stackUnderflow).haltReason.fatal = true := by decide

/-- PulsesTellTheLatestEdge: an unknown word, a display word, a word that is neither, and a `Draw` that halts (DSP-15). -/
theorem witness_Pulses : (launch 0xFFFF#16).fetch = some 0xFFFF#16 ∧ isUnknownWord 0xFFFF#16 = true ∧
    (launch 0xFFFF#16).pending = [] ∧ (launch 0xFFFF#16).running = true ∧
    after (launch 0x00E0#16) (fun t => t.fbChanged && !t.unkValid) = true ∧
    after (launch 0x6A2F#16) (fun t => !t.fbChanged && !t.unkValid) = true ∧
    after { launch 0xD012#16 with i := 0x0FFF#16 } (fun t => !t.fbChanged && !t.running && !t.unkValid) = true := by decide

/-- PulsesTellAListedStep: the same words at an edge that asserts everything but `rst` and `stop_req`. -/
theorem witness_Pulses_listed :
    let p : Inputs := { step := true, timerTick := true, start := true, ldWe := true, ldAddr := 0x201#12 }
    let s : State := { launch 0xFFFF#16 with pending := [p] }
    s.running = true ∧ s.pending = p :: [] ∧ p.rst = false ∧ p.stopReq = false ∧ p.step = true ∧
    s.fetch = some 0xFFFF#16 ∧ after s (fun t => t.unkValid && t.unkWord == some 0xFFFF#16 && !t.fbChanged) = true ∧
    after { launch 0x00E0#16 with pending := [p] } (fun t => t.fbChanged && !t.unkValid) = true ∧
    after { launch 0xD012#16 with i := 0x0FFF#16, pending := [p] }
      (fun t => !t.fbChanged && !t.running && !t.unkValid) = true := by decide

/-- CallThenReturnComesBack: room for one more entry. -/
theorem witness_CallThenReturn : ({ launch 0x2400#16 with sp := 15 } : State).sp.val < 16 := by decide

/-- BootLeavesTheLaunchState: an empty ROM and the longest that fits. -/
theorem witness_Boot : ([] : List Byte).length ≤ 3584 ∧ (List.replicate 3584 0x60#8).length ≤ 3584 :=
  ⟨Nat.zero_le _, Nat.le_of_eq List.length_replicate⟩

/-- EveryEdgeKeepsTheInvariant: a running state and a fatal halt that meet the invariant, and a step of each. -/
theorem witness_Invariant : (launch 0x2400#16).Inv ∧ ({ launch 0#16 with sp := 16 }.halt .stackOverflow).Inv ∧
    (∃ t, step (launch 0x2400#16) = .next t) ∧ ∃ t, step ({ launch 0#16 with sp := 16 }.halt .stackOverflow) = .next t :=
  ⟨by decide, by decide, ⟨_, rfl⟩, ⟨_, rfl⟩⟩

end Sys2Proof.Tests
end

section
/-!
The loader port (10_state.md R27): what a `Load` event does in a running and in a halted core.
-/
namespace Sys2Proof.Machine

theorem State.load_of_running (s : State) (a : Addr) (b : Byte) (h : s.running = true) : s.load a b = s := by
  obtain ⟨-, hload⟩ | ⟨hhalted, -⟩ := s.load_cases a b
  · exact hload
  · simp [h] at hhalted

theorem State.load_of_halted (s : State) (a : Addr) (b : Byte) (h : s.running = false) :
    s.load a b = { s with mem := s.mem.write a.toNat b } := by
  obtain ⟨hrunning, -⟩ | ⟨-, hload⟩ := s.load_cases a b
  · simp [h] at hrunning
  · exact hload

/-- Settles O52: the state after a load in a halted core is the old one with one byte of memory written. -/
theorem loaderWritesOnlyWhileHalted : Obligations.LoaderWritesOnlyWhileHalted := by
  intro s a b
  constructor
  · intro hrunning
    exact congrArg Host.Outcome.next (s.load_of_running a b hrunning)
  · intro hhalted
    have hload : applyEvent (.load a b) s = .next { s with mem := s.mem.write a.toNat b } :=
      congrArg Host.Outcome.next (s.load_of_halted a b hhalted)
    exact ⟨_, hload, Memory.read_write_same _ _ _, fun c hc => Memory.read_write_other _ _ c _ hc, rfl⟩

end Sys2Proof.Machine
end

section
/-!
The unknown space (30_encoding.md R72): family by family, the selectors the decoder refuses are the words of R72's list.
-/
namespace Sys2Proof

/-- R72 lists no word of the ten families that one operation fills. -/
theorem isUnknownWord_of_full_family {w : Word}
    (hfamily : w.toNat / 4096 ∈ [1, 2, 3, 4, 6, 7, 10, 11, 12, 13]) : ¬ isUnknownWord w = true := by
  rw [isUnknownWord_iff]
  simp only [List.mem_cons, List.not_mem_nil, or_false] at hfamily
  omega

/-- A family that one operation fills has no unknown word, for the decoder and in R72's list alike. -/
theorem decodeWord_unknown_iff_of_full_family {w : Word} {i : Instr} (hdecode : decodeWord w = i)
    (hknown : i ≠ .unknown w) (hfamily : w.toNat / 4096 ∈ [1, 2, 3, 4, 6, 7, 10, 11, 12, 13]) :
    decodeWord w = .unknown w ↔ isUnknownWord w = true :=
  iff_of_false (hdecode ▸ hknown) (isUnknownWord_of_full_family hfamily)

/-- Settles O3, by the families of the decoder's first level (R64): ten are filled by one operation each, and in the other
six the selectors without an operation are those of an item of R72's list. -/
theorem unknownExactlyTheListedWords : Obligations.UnknownExactlyTheListedWords := by
  intro w
  have full {i : Instr} := @decodeWord_unknown_iff_of_full_family w i
  rcases decodeWord_cases w with ⟨hf, hd⟩ | ⟨hf, hd⟩ | ⟨hf, hd⟩ | ⟨hf, hd⟩ | ⟨hf, hd⟩ | ⟨hf, hd⟩ | ⟨hf, hd⟩ | ⟨hf, hd⟩ |
    ⟨hf, hd⟩ | ⟨hf, hd⟩ | ⟨hf, hd⟩ | ⟨hf, hd⟩ | ⟨hf, hd⟩ | ⟨hf, hd⟩ | ⟨hf, hd⟩ | ⟨hf, hd⟩
  · rw [hd, decodeFamily0_unknown, isUnknownWord_iff]; omega
  · exact full hd nofun (by simp [hf])
  · exact full hd nofun (by simp [hf])
  · exact full hd nofun (by simp [hf])
  · exact full hd nofun (by simp [hf])
  · rw [hd, decodeFamily5_unknown, isUnknownWord_iff]; omega
  · exact full hd nofun (by simp [hf])
  · exact full hd nofun (by simp [hf])
  · rw [hd, decodeFamily8_unknown, isUnknownWord_iff]; omega
  · rw [hd, decodeFamily9_unknown, isUnknownWord_iff]; omega
  · exact full hd nofun (by simp [hf])
  · exact full hd nofun (by simp [hf])
  · exact full hd nofun (by simp [hf])
  · exact full hd nofun (by simp [hf])
  · rw [hd, decodeFamilyE_unknown, isUnknownWord_iff]; omega
  · rw [hd, decodeFamilyF_unknown, isUnknownWord_iff]; omega

end Sys2Proof
end

section
/-!
The fetch of an instruction step (40_execution_cycle.md R83, R84) and the unknown outcome (R90).
-/
namespace Sys2Proof.Machine

theorem instrStep_of_pc_out_of_bounds {s : State} (hrunning : s.running = true) (hpc : s.pc.toNat + 1 > 4095) :
    instrStep s = .next (s.halt .pcOutOfBounds) := by
  rcases instrStep_cases s with ⟨hhalted, -⟩ | ⟨-, -, hstep⟩ | ⟨-, hin, -⟩
  · simp [hrunning] at hhalted
  · exact hstep
  · omega

theorem State.fetch_of_inside {s : State} (hpc : s.pc.toNat + 1 ≤ 4095) :
    s.fetch = some (wordOfBytes (s.mem.read s.pc.toNat) (s.mem.read (s.pc.toNat + 1))) :=
  if_neg (by omega)

theorem instrStep_of_fetch {s : State} {w : Word} (hrunning : s.running = true) (hfetch : s.fetch = some w) :
    instrStep s = exec (decodeWord w) s := by
  simp [instrStep, hrunning, hfetch]

theorem instrStep_of_unknown_word {s : State} {w : Word} (hrunning : s.running = true) (hfetch : s.fetch = some w)
    (hunknown : isUnknownWord w = true) : instrStep s = .next (s.reportUnknown w).advance := by
  rw [instrStep_of_fetch hrunning hfetch, (unknownExactlyTheListedWords w).mpr hunknown]
  rfl

/-- Settles O45: `PC + 1` is outside memory or inside it; inside, the word fetched is the two bytes, high one first. -/
theorem fetchOutOfBoundsHalts : Obligations.FetchOutOfBoundsHalts := by
  intro s hrunning
  constructor
  · intro hpc
    exact instrStep_of_pc_out_of_bounds hrunning hpc
  · intro hpc
    have hfetch := State.fetch_of_inside hpc
    exact ⟨_, hfetch, wordOfBytes_toNat _ _, instrStep_of_fetch hrunning hfetch⟩

end Sys2Proof.Machine
end

section
/-!
The clock edge (40_execution_cycle.md R89): its events as those of the inputs listed for it, each input that is not
asserted leaving the state as it is; and what an edge without a step reports.
-/
namespace Sys2Proof.Machine

/-- An edge whose inputs are listed applies their events to the state with those inputs taken. -/
theorem step_of_pending {s : State} {p : Inputs} {rest : List Inputs} (h : s.pending = p :: rest) :
    step s = runEvents (edgeEvents p) { s with pending := rest, fbChanged := false, report := none } := by
  simp [step, clockEdge, State.nextInputs, State.beginEdge, h]

theorem edgeEvents_of_rst {p : Inputs} (h : p.rst = true) : edgeEvents p = [.reset] := if_pos h

/-- The event an input asks for, if the input is asserted. -/
def eventIf (c : Bool) (e : Event) : List Event := if c = true then [e] else []

theorem mem_eventIf {c : Bool} {d e : Event} : d ∈ eventIf c e ↔ c = true ∧ d = e := by
  cases c <;> simp [eventIf]

/-- The events of an edge that is no reset, each part of R89's order at its place. -/
theorem edgeEvents_of_not_rst {p : Inputs} (h : p.rst = false) :
    edgeEvents p = .keys p.keys :: (eventIf p.ldWe (.load p.ldAddr p.ldData) ++ (eventIf p.start .start ++
      (eventIf p.stopReq .stop ++ (eventIf p.step .step ++ eventIf p.timerTick .timerTick)))) := by
  simp [edgeEvents, eventIf, h]

/-- An input acts if it is asserted, and leaves the state as it is if not; the events after it see the result. -/
theorem runEvents_eventIf_append {c : Bool} {e : Event} {s t : State} (es : List Event)
    (h : applyEvent e s = .next t) :
    runEvents (eventIf c e ++ es) s = runEvents es (if c = true then t else s) := by
  cases c with
  | false => rfl
  | true => exact runEvents_cons_next es h

theorem runEvents_eventIf {c : Bool} {e : Event} {s t : State} (h : applyEvent e s = .next t) :
    runEvents (eventIf c e) s = .next (if c = true then t else s) := by
  simpa [runEvents] using runEvents_eventIf_append (c := c) [] h

/-- The end of an edge: the step, if asserted, and on the state it leaves the tick, if asserted. -/
theorem runEvents_step_then_tick (c d : Bool) (s : State) :
    runEvents (eventIf c .step ++ eventIf d .timerTick) s =
      mapNext (fun t => if d = true then t.timerTick else t) (if c = true then instrStep s else .next s) := by
  obtain ⟨t, ht⟩ : ∃ t, instrStep s = .next t := applyEvent_answers_next .step s
  rw [runEvents_eventIf_append _ (show applyEvent .step s = .next t from ht), runEvents_eventIf rfl, ht]
  cases c <;> rfl

/-- Settles O49: the inputs that come before the step answer a next state each, so they act one by one along the list of
R89; the step and the tick come last. -/
theorem edgeInputsActInOrder : Obligations.EdgeInputsActInOrder := by
  intro s p rest hpending
  rw [step_of_pending hpending]
  constructor
  · intro hrst
    rw [edgeEvents_of_rst hrst]
    rfl
  · rintro hrst s0 s1 s2 s3 rfl rfl rfl rfl
    rw [edgeEvents_of_not_rst hrst, runEvents_cons_next _ rfl, runEvents_eventIf_append _ rfl,
      runEvents_eventIf_append _ rfl, runEvents_eventIf_append _ rfl, runEvents_step_then_tick]

@[simp] theorem State.load_report (s : State) (a : Addr) (b : Byte) : (s.load a b).report = s.report := by
  rcases s.load_cases a b with ⟨-, hload⟩ | ⟨-, hload⟩ <;> rw [hload]

@[simp] theorem State.start_report (s : State) : s.start.report = s.report := by
  rcases s.start_cases with ⟨-, -, hstart⟩ | ⟨-, hstart⟩ <;> rw [hstart]

@[simp] theorem State.stop_report (s : State) : s.stop.report = s.report := by
  rcases s.stop_cases with ⟨-, hstop⟩ | ⟨-, hstop⟩ <;> rw [hstop]
  exact s.halt_report .stop

/-- Only an instruction step can make a report: every other event leaves an edge without one as it is. -/
theorem applyEvent_keeps_no_report {e : Event} (he : e ≠ .step) {s t : State} (hs : s.report = none)
    (h : applyEvent e s = .next t) : t.report = none := by
  cases e with
  | step => exact absurd rfl he
  | reset => cases h; rfl
  | load a b => cases h; rw [State.load_report, hs]
  | start => cases h; rw [State.start_report, hs]
  | stop => cases h; rw [State.stop_report, hs]
  | timerTick => cases h; exact hs
  | keys k => cases h; exact hs

theorem step_not_mem_edgeEvents {p : Inputs} (h : p.step = false) : Event.step ∉ edgeEvents p := by
  cases hrst : p.rst with
  | true => simp [edgeEvents_of_rst hrst]
  | false => simp [edgeEvents_of_not_rst hrst, mem_eventIf, h]

/-- An edge with no step ends with no report, whatever the edge before it reported. -/
theorem step_reports_nothing_of_no_step {s : State} {p : Inputs} {rest : List Inputs} (hpending : s.pending = p :: rest)
    (hstep : p.step = false) : ∃ t, step s = .next t ∧ t.report = none := by
  rw [step_of_pending hpending]
  refine runEvents_invariant (P := fun t => t.report = none) (edgeEvents p) ?_ _ rfl
  intro e he u t hu ht
  have hne : e ≠ .step := fun heq => step_not_mem_edgeEvents hstep (heq ▸ he)
  exact applyEvent_keeps_no_report hne hu ht

/-- Settles O18: the words of R72's list decode to the unknown operation, whose next state reports and advances `PC`; only
a step makes a report, so an edge without one ends it. -/
theorem unknownIsReportedAndSkipped : Obligations.UnknownIsReportedAndSkipped := by
  refine ⟨fun w s => rfl, ?_, ?_⟩
  · intro w s hrunning hfetch hunknown
    exact ⟨_, instrStep_of_unknown_word hrunning hfetch hunknown, rfl, rfl, rfl, rfl, hrunning, rfl⟩
  · intro s p rest hpending hstep
    obtain ⟨t, ht, hreport⟩ := step_reports_nothing_of_no_step hpending hstep
    exact ⟨t, ht, by simp [State.unkValid, hreport]⟩

end Sys2Proof.Machine
end

section
/-!
The words of the control transfers (41_control_flow.md): what each decodes to, in the format of its row.
-/
namespace Sys2Proof

@[simp] theorem decodeWord_jump_word (addr : Addr) : decodeWord (formatADDR 0x1#4 addr) = .jump addr := by
  simp [decodeWord]

@[simp] theorem decodeWord_callSubroutine_word (addr : Addr) :
    decodeWord (formatADDR 0x2#4 addr) = .callSubroutine addr := by
  simp [decodeWord]

@[simp] theorem decodeWord_skipIfEqual_word (x : Nibble) (kk : Byte) :
    decodeWord (formatXKK 0x3#4 x kk) = .skipIfEqual x kk := by
  simp [decodeWord]

@[simp] theorem decodeWord_skipIfNotEqual_word (x : Nibble) (kk : Byte) :
    decodeWord (formatXKK 0x4#4 x kk) = .skipIfNotEqual x kk := by
  simp [decodeWord]

@[simp] theorem decodeWord_skipIfRegistersEqual_word (x y : Nibble) :
    decodeWord (formatXYN 0x5#4 x y 0x0#4) = .skipIfRegistersEqual x y := by
  simp [decodeWord, decodeFamily5]

@[simp] theorem decodeWord_skipIfRegistersNotEqual_word (x y : Nibble) :
    decodeWord (formatXYN 0x9#4 x y 0x0#4) = .skipIfRegistersNotEqual x y := by
  simp [decodeWord, decodeFamily9]

@[simp] theorem decodeWord_jumpWithOffset_word (addr : Addr) :
    decodeWord (formatADDR 0xB#4 addr) = .jumpWithOffset addr := by
  simp [decodeWord]

/-- In the two families of register skips a non-zero low nibble is in R72's list, and so unknown to the decoder. -/
theorem decodeWord_register_skip_unknown {op n : Nibble} (hop : op.toNat = 5 ∨ op.toNat = 9) (hn : n ≠ 0x0#4)
    (x y : Nibble) : decodeWord (formatXYN op x y n) = .unknown (formatXYN op x y n) := by
  have hlow : n.toNat ≠ 0 := fun h => hn (BitVec.eq_of_toNat_eq h)
  have hlisted : isUnknownWord (formatXYN op x y n) = true := by
    rw [isUnknownWord_iff, formatXYN_toNat]
    omega
  exact (unknownExactlyTheListedWords _).mpr hlisted

end Sys2Proof
end

section
/-!
The control transfers (41_control_flow.md): jumps, skips, and the call and the return with the two branches of each.
-/
namespace Sys2Proof.Machine

/-! ## Jumps (R102, R104) -/

/-- The sum of R104 fits the 16 bits of `PC`, so it is the sum of the numbers. -/
theorem targetOf_add_widen_toNat (addr : Addr) (b : Byte) :
    (targetOf addr + widen b).toNat = addr.toNat + b.toNat := by
  rw [BitVec.toNat_add, targetOf_toNat, widen_toNat]
  omega

/-- Settles O13: a jump's next state is the old one with `PC` at the target, whose number does not wrap. -/
theorem jumpsGoToTheirTarget : Obligations.JumpsGoToTheirTarget := by
  intro addr s
  constructor
  · rw [orADDR_of_base (base := 0x1000#16) 0x1#4 addr rfl]
    exact ⟨decodeWord_jump_word addr, _, rfl, targetOf_toNat addr, rfl⟩
  · rw [orADDR_of_base (base := 0xB000#16) 0xB#4 addr rfl]
    have htarget := targetOf_add_widen_toNat addr (s.readV 0x0#4)
    have hbound : (targetOf addr + widen (s.readV 0x0#4)).toNat ≤ 0x10FE := by omega
    exact ⟨decodeWord_jumpWithOffset_word addr, _, rfl, htarget, hbound, rfl⟩

/-! ## Call and return (R103, R101) -/

theorem exec_callSubroutine_of_room (addr : Addr) {s : State} (h : s.sp.val < 16) :
    exec (.callSubroutine addr) s =
      .next { s with stack := s.stack.set s.sp.val s.pc h, sp := ⟨s.sp.val + 1, Nat.succ_lt_succ h⟩,
                     pc := targetOf addr } := by
  obtain ⟨hfull, -⟩ | ⟨_, hpush⟩ := s.pushPC_cases
  · omega
  · simp [exec, execCallSubroutine, hpush, State.jumpTo]

theorem exec_callSubroutine_of_full (addr : Addr) {s : State} (h : s.sp.val = 16) :
    exec (.callSubroutine addr) s = .next (s.halt .stackOverflow) := by
  obtain ⟨-, hpush⟩ | ⟨hroom, -⟩ := s.pushPC_cases
  · simp [exec, execCallSubroutine, hpush]
  · omega

/-- Settles O14: with room the entry written is the one at `SP`, and it holds the old `PC`; without, the core halts. -/
theorem callPushesItsOwnAddress : Obligations.CallPushesItsOwnAddress := by
  intro addr s
  rw [orADDR_of_base (base := 0x2000#16) 0x2#4 addr rfl]
  refine ⟨decodeWord_callSubroutine_word addr, fun hroom => ?_, exec_callSubroutine_of_full addr⟩
  have hothers (j : Fin 16) (hj : j.val ≠ s.sp.val) : (s.stack.set s.sp.val s.pc hroom)[j.val] = s.stack[j.val] :=
    Vector.getElem_set_ne hroom j.isLt hj.symm
  exact ⟨_, exec_callSubroutine_of_room addr hroom, Vector.getElem_set_self hroom, hothers, rfl, targetOf_toNat addr,
    rfl⟩

theorem exec_returnFromSubroutine_of_entry {s : State} (h : 0 < s.sp.val) :
    exec .returnFromSubroutine s =
      .next { s with sp := ⟨s.sp.val - 1, by omega⟩, pc := s.stack[s.sp.val - 1] + 2#16 } := by
  obtain ⟨hempty, -⟩ | ⟨_, hpop⟩ := s.popEntry_cases
  · omega
  · simp [exec, execReturnFromSubroutine, hpop, State.jumpTo]

theorem exec_returnFromSubroutine_of_empty {s : State} (h : s.sp.val = 0) :
    exec .returnFromSubroutine s = .next (s.halt .stackUnderflow) := by
  obtain ⟨-, hpop⟩ | ⟨hentry, -⟩ := s.popEntry_cases
  · simp [exec, execReturnFromSubroutine, hpop]
  · omega

/-- Settles O15: with a valid entry the newest one is popped and `PC` is two past it; without, the core halts. -/
theorem returnGoesPastTheCall : Obligations.ReturnGoesPastTheCall := fun _ =>
  ⟨rfl, fun hentry => ⟨_, exec_returnFromSubroutine_of_entry hentry, rfl, rfl, rfl⟩, exec_returnFromSubroutine_of_empty⟩

/-! ## Skips (R105 to R108) -/

/-- A skip changes `PC` alone, by the condition its Boolean decides. -/
theorem State.skipIf_of_iff (s : State) {c : Bool} {p : Prop} [Decidable p] (h : c = true ↔ p) :
    s.skipIf c = { s with pc := if p then s.pc + 4#16 else s.pc + 2#16 } := by
  simp only [State.skipIf, h]

/-- Settles O16: each skip is `State.skipIf` under the equality, or the inequality, of `V[x]` and `kk`. -/
theorem immediateSkips : Obligations.ImmediateSkips := by
  intro x kk s
  rw [orXKK_of_base (base := 0x3000#16) 0x3#4 x kk rfl, orXKK_of_base (base := 0x4000#16) 0x4#4 x kk rfl]
  exact ⟨decodeWord_skipIfEqual_word x kk, congrArg Host.Outcome.next (s.skipIf_of_iff beq_iff_eq),
    decodeWord_skipIfNotEqual_word x kk, congrArg Host.Outcome.next (s.skipIf_of_iff bne_iff_ne)⟩

/-- Settles O17: each skip is `State.skipIf` under the equality, or the inequality, of `V[x]` and `V[y]`; every other
low nibble of the two families is in R72's list. -/
theorem registerSkips : Obligations.RegisterSkips := by
  intro x y s
  rw [orXY_of_base (base := 0x5000#16) 0x5#4 x y 0x0#4 rfl, orXY_of_base (base := 0x9000#16) 0x9#4 x y 0x0#4 rfl]
  refine ⟨⟨decodeWord_skipIfRegistersEqual_word x y, congrArg Host.Outcome.next (s.skipIf_of_iff beq_iff_eq)⟩,
    ⟨decodeWord_skipIfRegistersNotEqual_word x y, congrArg Host.Outcome.next (s.skipIf_of_iff bne_iff_ne)⟩, ?_⟩
  intro n hn
  rw [orXYN_of_base (base := 0x5000#16) 0x5#4 x y n rfl, orXYN_of_base (base := 0x9000#16) 0x9#4 x y n rfl]
  exact ⟨decodeWord_register_skip_unknown (.inl rfl) hn x y, decodeWord_register_skip_unknown (.inr rfl) hn x y⟩

end Sys2Proof.Machine
end

section
/-!
The words of the register file and ALU operations (42_register_alu.md): what each decodes to, in the format of its row.
-/
namespace Sys2Proof

@[simp] theorem decodeWord_setRegister_word (x : Nibble) (kk : Byte) :
    decodeWord (formatXKK 0x6#4 x kk) = .setRegister x kk := by
  simp [decodeWord]

@[simp] theorem decodeWord_addRegister_word (x : Nibble) (kk : Byte) :
    decodeWord (formatXKK 0x7#4 x kk) = .addRegister x kk := by
  simp [decodeWord]

@[simp] theorem decodeWord_randomAnd_word (x : Nibble) (kk : Byte) :
    decodeWord (formatXKK 0xC#4 x kk) = .randomAnd x kk := by
  simp [decodeWord]

/-- Every word of family 8 is decoded by its low nibble (R68). -/
theorem decodeWord_family8_word (x y sub4 : Nibble) :
    decodeWord (formatXYN 0x8#4 x y sub4) = decodeFamily8 (formatXYN 0x8#4 x y sub4) := by
  simp [decodeWord]

@[simp] theorem decodeWord_copyRegister_word (x y : Nibble) :
    decodeWord (formatXYN 0x8#4 x y 0x0#4) = .copyRegister x y := by
  simp [decodeWord_family8_word, decodeFamily8]

@[simp] theorem decodeWord_orRegister_word (x y : Nibble) :
    decodeWord (formatXYN 0x8#4 x y 0x1#4) = .orRegister x y := by
  simp [decodeWord_family8_word, decodeFamily8]

@[simp] theorem decodeWord_andRegister_word (x y : Nibble) :
    decodeWord (formatXYN 0x8#4 x y 0x2#4) = .andRegister x y := by
  simp [decodeWord_family8_word, decodeFamily8]

@[simp] theorem decodeWord_xorRegister_word (x y : Nibble) :
    decodeWord (formatXYN 0x8#4 x y 0x3#4) = .xorRegister x y := by
  simp [decodeWord_family8_word, decodeFamily8]

@[simp] theorem decodeWord_addRegisterWithCarry_word (x y : Nibble) :
    decodeWord (formatXYN 0x8#4 x y 0x4#4) = .addRegisterWithCarry x y := by
  simp [decodeWord_family8_word, decodeFamily8]

@[simp] theorem decodeWord_subRegister_word (x y : Nibble) :
    decodeWord (formatXYN 0x8#4 x y 0x5#4) = .subRegister x y := by
  simp [decodeWord_family8_word, decodeFamily8]

@[simp] theorem decodeWord_shiftRight_word (x y : Nibble) :
    decodeWord (formatXYN 0x8#4 x y 0x6#4) = .shiftRight x y := by
  simp [decodeWord_family8_word, decodeFamily8]

@[simp] theorem decodeWord_subRegisterReverse_word (x y : Nibble) :
    decodeWord (formatXYN 0x8#4 x y 0x7#4) = .subRegisterReverse x y := by
  simp [decodeWord_family8_word, decodeFamily8]

@[simp] theorem decodeWord_shiftLeft_word (x y : Nibble) : decodeWord (formatXYN 0x8#4 x y 0xE#4) = .shiftLeft x y := by
  simp [decodeWord_family8_word, decodeFamily8]

end Sys2Proof
end

section
/-!
The register file and ALU (42_register_alu.md): the operations that write one register, and those that write `VF` after it.
-/
namespace Sys2Proof.Machine

/-! ## Operations that write one register (R122 to R127, R133) -/

/-- Settles O5: the next state is the old one with `V[x]` written and `PC` advanced. -/
theorem setRegisterWritesTheImmediate : Obligations.SetRegisterWritesTheImmediate := by
  intro x kk s
  rw [orXKK_of_base (base := 0x6000#16) 0x6#4 x kk rfl]
  exact ⟨decodeWord_setRegister_word x kk, _, rfl, s.writeV_readV_same x kk, s.writeV_readV_other x kk, rfl, rfl⟩

/-- Settles O6: the byte written is the sum modulo 256, and it is the only register written. -/
theorem addRegisterWrapsWithoutFlag : Obligations.AddRegisterWrapsWithoutFlag := by
  intro x kk s
  rw [orXKK_of_base (base := 0x7000#16) 0x7#4 x kk rfl]
  refine ⟨decodeWord_addRegister_word x kk, _, rfl, ?_, s.writeV_readV_other x _, rfl, rfl⟩
  rw [State.advance_readV, State.writeV_readV_same, addByte_toNat]

/-- Settles O7: the byte written is the old `V[y]`, and it is the only register written. -/
theorem copyRegisterCopies : Obligations.CopyRegisterCopies := by
  intro x y s
  rw [orXY_of_base (base := 0x8000#16) 0x8#4 x y 0x0#4 rfl]
  exact ⟨decodeWord_copyRegister_word x y, _, rfl, s.writeV_readV_same x _, s.writeV_readV_other x _, rfl, rfl⟩

/-- Settles O8: with the switch of R5 at its default nothing follows the write of `V[x]`, so `VF` stays; the bits of the
byte written are those of the bitwise operation. -/
theorem logicIsBitwiseWithoutFlag : Obligations.LogicIsBitwiseWithoutFlag := by
  intro x y s
  rw [orXY_of_base (base := 0x8001#16) 0x8#4 x y 0x1#4 rfl, orXY_of_base (base := 0x8002#16) 0x8#4 x y 0x2#4 rfl,
    orXY_of_base (base := 0x8003#16) 0x8#4 x y 0x3#4 rfl]
  refine ⟨⟨decodeWord_orRegister_word x y, _, rfl, fun j _ => ?_, s.writeV_readV_other x _, rfl, rfl⟩,
    ⟨decodeWord_andRegister_word x y, _, rfl, fun j _ => ?_, s.writeV_readV_other x _, rfl, rfl⟩,
    ⟨decodeWord_xorRegister_word x y, _, rfl, fun j _ => ?_, s.writeV_readV_other x _, rfl, rfl⟩⟩ <;>
    rw [State.advance_readV, State.logicFlag_default, State.writeV_readV_same]
  · exact BitVec.getLsbD_or
  · exact BitVec.getLsbD_and
  · exact BitVec.getLsbD_xor

/-- Settles O12: nothing is assumed of the byte drawn; a bit that is 0 in the mask is 0 in the conjunction. -/
theorem randomAndMasksTheDraw : Obligations.RandomAndMasksTheDraw := by
  intro x kk s
  rw [orXKK_of_base (base := 0xC000#16) 0xC#4 x kk rfl]
  have hbyte := s.drawByte.2.writeV_readV_same x (Config.randByte s.draws &&& kk)
  refine ⟨decodeWord_randomAnd_word x kk, _, rfl, hbyte, fun j hj => ?_, s.drawByte.2.writeV_readV_other x _, rfl, rfl⟩
  calc _ = (Config.randByte s.draws &&& kk).getLsbD j := congrArg (·.getLsbD j) hbyte
    _ = false := by rw [BitVec.getLsbD_and, hj, Bool.and_false]

/-! ## Operations that write `VF` after their result (R121, R128 to R132) -/

/-- The result stays in its register, unless that is `VF`. -/
theorem State.writeV_writeFlag_readV_dest (s : State) {x : Nibble} (hx : x ≠ 0xF#4) (b : Byte) (f : Bool) :
    ((s.writeV x b).writeFlag f).readV x = b := by
  rw [State.writeFlag_readV_other _ f x hx, State.writeV_readV_same]

theorem State.writeV_writeFlag_readV_other (s : State) (x : Nibble) (b : Byte) (f : Bool) (k : Nibble) (hk : k ≠ x)
    (hflag : k ≠ 0xF#4) : ((s.writeV x b).writeFlag f).readV k = s.readV k := by
  rw [State.writeFlag_readV_other _ f k hflag, s.writeV_readV_other x b k hk]

theorem flagByte_carryOut (a b : Byte) :
    flagByte (carryOut a b) = if a.toNat + b.toNat > 255 then 1#8 else 0#8 := by
  simp [flagByte, carryOut]

theorem flagByte_noBorrow (a b : Byte) : flagByte (noBorrow a b) = if a.toNat ≥ b.toNat then 1#8 else 0#8 := by
  simp [flagByte, noBorrow]

/-- Settles O9: the carry is written after the sum, so it is what `VF` holds, also where `x` is F. -/
theorem addWithCarrySetsFlagLast : Obligations.AddWithCarrySetsFlagLast := by
  intro x y s
  rw [orXY_of_base (base := 0x8004#16) 0x8#4 x y 0x4#4 rfl]
  refine ⟨decodeWord_addRegisterWithCarry_word x y, _, rfl, fun hx => ?_, ?_, s.writeV_writeFlag_readV_other x _ _, rfl,
    rfl⟩
  · rw [State.advance_readV, s.writeV_writeFlag_readV_dest hx, addByte_toNat]
  · rw [State.advance_readV, State.writeFlag_readV_flag, flagByte_carryOut]

/-- The next state of a subtraction `a - b` into `V[x]`, whichever register is the minuend (R129, R131). -/
theorem State.subtraction_effect (s : State) (x : Nibble) (a b : Byte) :
    ∃ t, Host.Outcome.next (φ := Fault) (ρ := Refusal)
        ((s.writeV x (subByte a b)).writeFlag (noBorrow a b)).advance = .next t ∧
      (x ≠ 0xF#4 → (t.readV x).toNat = (a.toNat + 256 - b.toNat) % 256) ∧
      t.readV 0xF#4 = (if a.toNat ≥ b.toNat then 1#8 else 0#8) ∧
      (∀ k, k ≠ x → k ≠ 0xF#4 → t.readV k = s.readV k) ∧ t.pc = s.pc + 2#16 ∧ t = { s with v := t.v, pc := t.pc } := by
  refine ⟨_, rfl, fun hx => ?_, ?_, s.writeV_writeFlag_readV_other x _ _, rfl, rfl⟩
  · rw [State.advance_readV, s.writeV_writeFlag_readV_dest hx, subByte_toNat]
  · rw [State.advance_readV, State.writeFlag_readV_flag, flagByte_noBorrow]

/-- Settles O10: the two subtractions are one, with minuend and subtrahend exchanged. -/
theorem subtractionsSetNoBorrow : Obligations.SubtractionsSetNoBorrow := by
  intro x y s
  rw [orXY_of_base (base := 0x8005#16) 0x8#4 x y 0x5#4 rfl, orXY_of_base (base := 0x8007#16) 0x8#4 x y 0x7#4 rfl]
  exact ⟨⟨decodeWord_subRegister_word x y, s.subtraction_effect x (s.readV x) (s.readV y)⟩,
    ⟨decodeWord_subRegisterReverse_word x y, s.subtraction_effect x (s.readV y) (s.readV x)⟩⟩

/-- Settles O11: with the switch of R5 at its default the operand is `V[x]` for every `y`; the bit shifted out is written
after the result. -/
theorem shiftsSetTheBitShiftedOut : Obligations.ShiftsSetTheBitShiftedOut := by
  intro x y s
  rw [orXY_of_base (base := 0x8006#16) 0x8#4 x y 0x6#4 rfl, orXY_of_base (base := 0x800E#16) 0x8#4 x y 0xE#4 rfl]
  constructor
  · refine ⟨decodeWord_shiftRight_word x y, _, rfl, fun hx => ?_, ?_, s.writeV_writeFlag_readV_other x _ _, rfl, rfl⟩
    · rw [State.advance_readV, s.writeV_writeFlag_readV_dest hx, State.shiftSource_default, shiftRightOne_toNat]
    · rw [State.advance_readV, State.writeFlag_readV_flag, State.shiftSource_default, flagByte_outRight]
  · refine ⟨decodeWord_shiftLeft_word x y, _, rfl, fun hx => ?_, ?_, s.writeV_writeFlag_readV_other x _ _, rfl, rfl⟩
    · rw [State.advance_readV, s.writeV_writeFlag_readV_dest hx, State.shiftSource_default, shiftLeftOne_toNat]
    · rw [State.advance_readV, State.writeFlag_readV_flag, State.shiftSource_default, flagByte_outLeft]

end Sys2Proof.Machine
end

section
/-!
The words of the index register and memory operations (43_index_memory.md): what each decodes to, in the
format of its row.
-/
namespace Sys2Proof

@[simp] theorem decodeWord_setIndexRegister_word (addr : Addr) :
    decodeWord (formatADDR 0xA#4 addr) = .setIndexRegister addr := by
  simp [decodeWord]

/-- Every word of family F is decoded by its low byte (R71). -/
theorem decodeWord_familyF_word (x : Nibble) (sub8 : Byte) :
    decodeWord (formatXKK 0xF#4 x sub8) = decodeFamilyF (formatXKK 0xF#4 x sub8) := by
  simp [decodeWord]

@[simp] theorem decodeWord_addToIndex_word (x : Nibble) : decodeWord (formatXKK 0xF#4 x 0x1E#8) = .addToIndex x := by
  simp [decodeWord_familyF_word, decodeFamilyF]

@[simp] theorem decodeWord_setIndexToGlyph_word (x : Nibble) :
    decodeWord (formatXKK 0xF#4 x 0x29#8) = .setIndexToGlyph x := by
  simp [decodeWord_familyF_word, decodeFamilyF]

@[simp] theorem decodeWord_storeBcd_word (x : Nibble) : decodeWord (formatXKK 0xF#4 x 0x33#8) = .storeBcd x := by
  simp [decodeWord_familyF_word, decodeFamilyF]

@[simp] theorem decodeWord_storeRegisters_word (x : Nibble) :
    decodeWord (formatXKK 0xF#4 x 0x55#8) = .storeRegisters x := by
  simp [decodeWord_familyF_word, decodeFamilyF]

@[simp] theorem decodeWord_loadRegisters_word (x : Nibble) :
    decodeWord (formatXKK 0xF#4 x 0x65#8) = .loadRegisters x := by
  simp [decodeWord_familyF_word, decodeFamilyF]

end Sys2Proof
end

section
/-!
The index register and memory (43_index_memory.md): the operations that write `I`, and the transfers with the two
branches of each, inside memory and partly outside.
-/
namespace Sys2Proof.Machine

/-! ## Operations that write `I` (R141 to R143) -/

/-- Settles O19: the index written is the address as a number, not scaled. -/
theorem setIndexRegisterWritesAddr : Obligations.SetIndexRegisterWritesAddr := by
  intro addr s
  rw [orADDR_of_base (base := 0xA000#16) 0xA#4 addr rfl]
  exact ⟨decodeWord_setIndexRegister_word addr, _, rfl, targetOf_toNat addr, rfl, rfl⟩

/-- Settles O20: the sum is that of 16-bit words, and `I` and `PC` are all that is written. -/
theorem addToIndexKeepsSixteenBits : Obligations.AddToIndexKeepsSixteenBits := by
  intro x s
  rw [orX_of_base (base := 0xF01E#16) 0xF#4 x 0x1E#8 rfl]
  have hsum : (s.i + widen (s.readV x)).toNat = (s.i.toNat + (s.readV x).toNat) % 65536 := by
    rw [BitVec.toNat_add, widen_toNat]
  exact ⟨decodeWord_addToIndex_word x, _, rfl, hsum, rfl, rfl⟩

/-- Settles O21: the glyph is that of the low nibble, and its address fits the 16 bits of `I`. -/
theorem setIndexToGlyphPointsIntoFont : Obligations.SetIndexToGlyphPointsIntoFont := by
  intro x s
  rw [orX_of_base (base := 0xF029#16) 0xF#4 x 0x29#8 rfl]
  have haddress : (glyphAddress (lowNibble (s.readV x))).toNat = 0x0050 + 5 * ((s.readV x).toNat % 16) := by
    rw [glyphAddress_toNat, lowNibble_toNat]
  exact ⟨decodeWord_setIndexToGlyph_word x, _, rfl, haddress, rfl, rfl⟩

/-! ## Digits of a byte (R144) -/

theorem exec_storeBcd_of_inside (x : Nibble) {s : State} (h : s.i.toNat + 2 ≤ 4095) :
    exec (.storeBcd x) s =
      .next { s with mem := s.mem.writeBytes s.i.toNat (bcdDigits (s.readV x)), pc := s.pc + 2#16 } := by
  have hwrite := s.memWrite_inside s.i.toNat (bcdDigits (s.readV x)) h
  simp [exec, execStoreBcd, State.base, hwrite, State.advance]

theorem exec_storeBcd_of_outside (x : Nibble) {s : State} (h : s.i.toNat + 2 > 4095) :
    exec (.storeBcd x) s = .next (s.halt .memOutOfBounds) := by
  have hwrite := s.memWrite_outside s.i.toNat (bcdDigits (s.readV x)) h
  simp [exec, execStoreBcd, State.base, hwrite]

/-- The hundreds, tens and ones of a byte each fit a byte. -/
theorem bcdDigits_toNat (b : Byte) :
    (bcdDigits b)[0].toNat = b.toNat / 100 ∧ (bcdDigits b)[1].toNat = b.toNat / 10 % 10 ∧
      (bcdDigits b)[2].toNat = b.toNat % 10 := by
  have hb := b.isLt
  simp only [bcdDigits, List.getElem_cons_zero, List.getElem_cons_succ, BitVec.toNat_ofNat]
  omega

/-- Settles O22: inside memory the three digits are written one after the other from `I`; otherwise the core halts. -/
theorem storeBcdWritesThreeDigits : Obligations.StoreBcdWritesThreeDigits := by
  intro x s
  rw [orX_of_base (base := 0xF033#16) 0xF#4 x 0x33#8 rfl]
  refine ⟨decodeWord_storeBcd_word x, fun hinside => ?_, exec_storeBcd_of_outside x⟩
  have hdigit := Memory.read_writeBytes_at (bcdDigits (s.readV x)) s.mem s.i.toNat
  have hothers := Memory.read_writeBytes_other (bcdDigits (s.readV x)) s.mem s.i.toNat
  obtain ⟨hhundreds, htens, hones⟩ := bcdDigits_toNat (s.readV x)
  exact ⟨_, exec_storeBcd_of_inside x hinside, (congrArg BitVec.toNat (hdigit 0 (by simp))).trans hhundreds,
    (congrArg BitVec.toNat (hdigit 1 (by simp))).trans htens, (congrArg BitVec.toNat (hdigit 2 (by simp))).trans hones,
    hothers, rfl, rfl⟩

/-! ## Register ranges (R145, R146) -/

theorem exec_storeRegisters_of_inside (x : Nibble) {s : State} (h : s.i.toNat + x.toNat ≤ 4095) :
    exec (.storeRegisters x) s =
      .next { s with mem := s.mem.writeBytes s.i.toNat (s.registersUpTo x), pc := s.pc + 2#16 } := by
  have hwrite := s.memWrite_inside s.i.toNat (s.registersUpTo x) (by simpa using h)
  simp [exec, execStoreRegisters, State.base, hwrite, State.advance]

theorem exec_storeRegisters_of_outside (x : Nibble) {s : State} (h : s.i.toNat + x.toNat > 4095) :
    exec (.storeRegisters x) s = .next (s.halt .memOutOfBounds) := by
  have hwrite := s.memWrite_outside s.i.toNat (s.registersUpTo x) (by simpa using h)
  simp [exec, execStoreRegisters, State.base, hwrite]

/-- Settles O23: inside memory the registers up to `x` are written one after the other from `I`, which the switch of R5
at its default leaves as it is; otherwise the core halts. -/
theorem storeRegistersWritesTheRange : Obligations.StoreRegistersWritesTheRange := by
  intro x s
  rw [orX_of_base (base := 0xF055#16) 0xF#4 x 0x55#8 rfl]
  refine ⟨decodeWord_storeRegisters_word x, fun hinside => ?_, exec_storeRegisters_of_outside x⟩
  have hlength := s.registersUpTo_length x
  refine ⟨_, exec_storeRegisters_of_inside x hinside, fun k hk => ?_, fun a ha => ?_, rfl, rfl⟩
  · rw [Memory.read_writeBytes_at _ _ _ k.toNat (by omega), State.registersUpTo_getElem]
  · exact Memory.read_writeBytes_other _ _ _ a (by omega)

theorem exec_loadRegisters_of_inside (x : Nibble) {s : State} (h : s.i.toNat + x.toNat ≤ 4095) :
    exec (.loadRegisters x) s =
      .next { s with v := loadFrom (s.mem.readBytes s.i.toNat (x.toNat + 1)) 0 s.v, pc := s.pc + 2#16 } := by
  have hread := s.memRead_inside s.i.toNat (x.toNat + 1) h
  simp [exec, execLoadRegisters, State.base, hread, State.advance]

theorem exec_loadRegisters_of_outside (x : Nibble) {s : State} (h : s.i.toNat + x.toNat > 4095) :
    exec (.loadRegisters x) s = .next (s.halt .memOutOfBounds) := by
  have hread := s.memRead_outside s.i.toNat (x.toNat + 1) h
  simp [exec, execLoadRegisters, State.base, hread]

/-- The registers loaded from a range of memory: up to `x` the bytes of the range, above `x` as before (R146). -/
theorem loadFrom_readBytes_getElem (m : Memory) (a : Nat) (v : Vector Byte 16) (x k : Nibble) :
    (loadFrom (m.readBytes a (x.toNat + 1)) 0 v)[k.toNat]'k.isLt =
      if k.toNat ≤ x.toNat then m.read (a + k.toNat) else v[k.toNat]'k.isLt := by
  rw [loadFrom_getElem]
  by_cases hk : k.toNat ≤ x.toNat
  · rw [dif_pos ⟨by omega, by simp; omega⟩, if_pos hk, Memory.readBytes_getElem, Nat.sub_zero]
  · rw [dif_neg (by simp; omega), if_neg hk]

/-- Settles O24: inside memory the registers up to `x` are loaded from the bytes at `I`, which the switch of R5 at its
default leaves as it is; otherwise the core halts. -/
theorem loadRegistersReadsTheRange : Obligations.LoadRegistersReadsTheRange := by
  intro x s
  rw [orX_of_base (base := 0xF065#16) 0xF#4 x 0x65#8 rfl]
  refine ⟨decodeWord_loadRegisters_word x, fun hinside => ?_, exec_loadRegisters_of_outside x⟩
  have hregister := loadFrom_readBytes_getElem s.mem s.i.toNat s.v x
  exact ⟨_, exec_loadRegisters_of_inside x hinside, fun k hk => (hregister k).trans (if_pos hk),
    fun k hk => (hregister k).trans (if_neg (by omega)), rfl, rfl⟩

end Sys2Proof.Machine
end

section
/-!
The word of `Draw` (44_display.md): what it decodes to, in the format of its row.
-/
namespace Sys2Proof

@[simp] theorem decodeWord_draw_word (x y n : Nibble) : decodeWord (formatXYN 0xD#4 x y n) = .draw x y n := by
  simp [decodeWord]

end Sys2Proof
end

section
/-!
The display (44_display.md): `ClearScreen`, and `Draw` with its two branches, a sprite inside memory and one partly outside.
-/
namespace Sys2Proof.Machine

/-! ## `ClearScreen` (R161) -/

/-- Settles O25: the frame written is the one with every pixel off, and no register is written. -/
theorem clearScreenTurnsEveryPixelOff : Obligations.ClearScreenTurnsEveryPixelOff := fun _ =>
  ⟨by decide, _, rfl, Frame.pixel_off, rfl, rfl, rfl⟩

/-! ## `Draw` (R162) -/

/-- The next state of a `Draw` that completes. -/
def State.afterDraw (s : State) (x y n : Nibble) : State :=
  ((s.writeFrame (plot (s.drawPixels x y n) s.fb false).1).writeFlag (plot (s.drawPixels x y n) s.fb false).2).advance

theorem exec_draw_of_inside (x y : Nibble) {n : Nibble} {s : State}
    (h : n.toNat = 0 ∨ s.i.toNat + n.toNat - 1 ≤ 4095) : exec (.draw x y n) s = .next (s.afterDraw x y n) := by
  obtain ⟨houtside, _⟩ | ⟨_, hnext⟩ := execDraw_cases s x y n
  · omega
  · exact hnext

theorem exec_draw_of_outside (x y : Nibble) {n : Nibble} {s : State}
    (h : 0 < n.toNat ∧ s.i.toNat + n.toNat - 1 > 4095) : exec (.draw x y n) s = .next (s.halt .memOutOfBounds) := by
  obtain ⟨_, hhalt⟩ | ⟨hinside, _⟩ := execDraw_cases s x y n
  · exact hhalt
  · omega

theorem State.afterDraw_pixel_of_covered {s : State} {x y n : Nibble} {r : Fin 32} {c : Fin 64}
    (h : spriteCovers s x y n r c) : (s.afterDraw x y n).fb.pixel r c = !s.fb.pixel r c :=
  (plot_pixel _ s.fb false r c (s.drawPixels_nodup x y n)).trans (if_pos ((s.mem_drawPixels x y n r c).mpr h))

theorem State.afterDraw_pixel_of_not_covered {s : State} {x y n : Nibble} {r : Fin 32} {c : Fin 64}
    (h : ¬ spriteCovers s x y n r c) : (s.afterDraw x y n).fb.pixel r c = s.fb.pixel r c :=
  (plot_pixel _ s.fb false r c (s.drawPixels_nodup x y n)).trans (if_neg (mt (s.mem_drawPixels x y n r c).mp h))

theorem State.afterDraw_readV_flag (s : State) (x y n : Nibble) :
    (s.afterDraw x y n).readV 0xF#4 = flagByte (plot (s.drawPixels x y n) s.fb false).2 :=
  State.writeFlag_readV_flag _ _

theorem State.afterDraw_readV_other (s : State) (x y n k : Nibble) (hk : k ≠ 0xF#4) :
    (s.afterDraw x y n).readV k = s.readV k :=
  State.writeFlag_readV_other _ _ k hk

/-- The loop of `Draw` sets its flag exactly when a pixel under the sprite was on before it. -/
theorem State.plot_drawPixels_hit (s : State) (x y n : Nibble) :
    (plot (s.drawPixels x y n) s.fb false).2 = true ↔ ∃ r c, spriteCovers s x y n r c ∧ s.fb.pixel r c = true := by
  rw [plot_hit _ _ _ (s.drawPixels_nodup x y n)]
  simp only [Bool.false_eq_true, false_or, Prod.exists, State.mem_drawPixels]

theorem State.afterDraw_flag_of_collision {s : State} {x y n : Nibble}
    (h : ∃ r c, spriteCovers s x y n r c ∧ s.fb.pixel r c = true) : (s.afterDraw x y n).readV 0xF#4 = 1#8 := by
  rw [State.afterDraw_readV_flag, (s.plot_drawPixels_hit x y n).mpr h]
  rfl

theorem State.afterDraw_flag_of_no_collision {s : State} {x y n : Nibble}
    (h : ∀ r c, spriteCovers s x y n r c → s.fb.pixel r c = false) : (s.afterDraw x y n).readV 0xF#4 = 0#8 := by
  have hno : ¬ ∃ r c, spriteCovers s x y n r c ∧ s.fb.pixel r c = true := by
    rintro ⟨r, c, hcovered, hon⟩
    simp [h r c hcovered] at hon
  rw [State.afterDraw_readV_flag, Bool.eq_false_iff.mpr (mt (s.plot_drawPixels_hit x y n).mp hno)]
  rfl

/-- Settles O26: the loop goes through the pixels under the sprite's 1-bits, each once, so it turns over exactly those; the
flag is written last, and with a row outside memory the core halts before anything is written. -/
theorem drawTogglesExactlyTheSprite : Obligations.DrawTogglesExactlyTheSprite := by
  intro x y n s
  rw [orXYN_of_base (base := 0xD000#16) 0xD#4 x y n rfl]
  refine ⟨decodeWord_draw_word x y n, fun hinside => ?_, exec_draw_of_outside x y⟩
  exact ⟨_, exec_draw_of_inside x y hinside, fun _ _ => State.afterDraw_pixel_of_covered,
    fun _ _ => State.afterDraw_pixel_of_not_covered, State.afterDraw_flag_of_collision,
    State.afterDraw_flag_of_no_collision, s.afterDraw_readV_other x y n, rfl, rfl, rfl⟩

end Sys2Proof.Machine
end

section
/-!
The words of the timer and keypad operations (45_timers_keypad.md): what each decodes to, in the format of its row.
-/
namespace Sys2Proof

@[simp] theorem decodeWord_loadDelayTimer_word (x : Nibble) :
    decodeWord (formatXKK 0xF#4 x 0x07#8) = .loadDelayTimer x := by
  simp [decodeWord_familyF_word, decodeFamilyF]

@[simp] theorem decodeWord_waitForKey_word (x : Nibble) : decodeWord (formatXKK 0xF#4 x 0x0A#8) = .waitForKey x := by
  simp [decodeWord_familyF_word, decodeFamilyF]

@[simp] theorem decodeWord_setDelayTimer_word (x : Nibble) :
    decodeWord (formatXKK 0xF#4 x 0x15#8) = .setDelayTimer x := by
  simp [decodeWord_familyF_word, decodeFamilyF]

@[simp] theorem decodeWord_setSoundTimer_word (x : Nibble) :
    decodeWord (formatXKK 0xF#4 x 0x18#8) = .setSoundTimer x := by
  simp [decodeWord_familyF_word, decodeFamilyF]

@[simp] theorem decodeWord_skipIfKeyPressed_word (x : Nibble) :
    decodeWord (formatXKK 0xE#4 x 0x9E#8) = .skipIfKeyPressed x := by
  simp [decodeWord, decodeFamilyE]

@[simp] theorem decodeWord_skipIfKeyNotPressed_word (x : Nibble) :
    decodeWord (formatXKK 0xE#4 x 0xA1#8) = .skipIfKeyNotPressed x := by
  simp [decodeWord, decodeFamilyE]

end Sys2Proof
end

section
/-!
The timers and the keypad (45_timers_keypad.md): the moves of a timer's byte, the wait for a key with its two branches,
and the skips on a key.
-/
namespace Sys2Proof.Machine

/-! ## Timers (R170 to R172) -/

/-- The sound output is on exactly while `ST` is not 0 (R208). -/
theorem State.soundOn_iff (s : State) : s.soundOn = true ↔ s.st ≠ 0#8 := bne_iff_ne

/-- Settles O28: each operation writes one byte, the register or the timer, and `PC`; the sound output is a function of
the `ST` written. -/
theorem timerRegistersMove : Obligations.TimerRegistersMove := by
  intro x s
  rw [orX_of_base (base := 0xF007#16) 0xF#4 x 0x07#8 rfl, orX_of_base (base := 0xF015#16) 0xF#4 x 0x15#8 rfl,
    orX_of_base (base := 0xF018#16) 0xF#4 x 0x18#8 rfl]
  refine ⟨⟨decodeWord_loadDelayTimer_word x, ?_⟩, ⟨decodeWord_setDelayTimer_word x, rfl⟩,
    ⟨decodeWord_setSoundTimer_word x, ?_⟩⟩
  · exact ⟨_, rfl, s.writeV_readV_same x s.dt, s.writeV_readV_other x s.dt, rfl, rfl⟩
  · exact ⟨_, rfl, rfl, State.soundOn_iff _⟩

/-! ## The wait for a key (R173) -/

theorem exec_waitForKey_of_no_key (x : Nibble) {s : State} (h : ∀ k : Nibble, s.keys.getLsbD k.toNat = false) :
    exec (.waitForKey x) s = .next s := by
  simp [exec, execWaitForKey, s.lowestKey_none h]

theorem exec_waitForKey_of_lowest_key (x : Nibble) {s : State} {k : Nibble} (hk : s.keys.getLsbD k.toNat = true)
    (hlow : ∀ j : Nibble, j.toNat < k.toNat → s.keys.getLsbD j.toNat = false) :
    exec (.waitForKey x) s = .next (s.writeV x (k.setWidth 8)).advance := by
  simp [exec, execWaitForKey, s.lowestKey_some k hk hlow]

/-- Settles O29: the search finds no key, or it finds the smallest one pressed, whose number fits the byte written. -/
theorem waitForKeyTakesTheLowest : Obligations.WaitForKeyTakesTheLowest := by
  intro x s
  rw [orX_of_base (base := 0xF00A#16) 0xF#4 x 0x0A#8 rfl]
  refine ⟨decodeWord_waitForKey_word x, exec_waitForKey_of_no_key x, fun k hk hlow => ?_⟩
  have hbyte : (((s.writeV x (k.setWidth 8)).advance).readV x).toNat = k.toNat := by
    rw [State.advance_readV, State.writeV_readV_same, BitVec.toNat_setWidth_of_le (by decide)]
  exact ⟨_, exec_waitForKey_of_lowest_key x hk hlow, hbyte, s.writeV_readV_other x _, rfl, rfl⟩

/-! ## Skips on a key (R174, R175) -/

/-- The key a byte selects is that of its low nibble (D24). -/
theorem State.keyPressed_lowNibble (s : State) (b : Byte) :
    s.keyPressed (lowNibble b) = s.keys.getLsbD (b.toNat % 16) := by
  rw [State.keyPressed, lowNibble_toNat]

/-- Settles O30: each skip is `State.skipIf` under the key's bit, or its negation. -/
theorem keySkips : Obligations.KeySkips := by
  intro x s
  rw [orX_of_base (base := 0xE09E#16) 0xE#4 x 0x9E#8 rfl, orX_of_base (base := 0xE0A1#16) 0xE#4 x 0xA1#8 rfl,
    ← s.keyPressed_lowNibble]
  exact ⟨⟨decodeWord_skipIfKeyPressed_word x, congrArg Host.Outcome.next (s.skipIf_of_iff Iff.rfl)⟩,
    ⟨decodeWord_skipIfKeyNotPressed_word x,
      congrArg Host.Outcome.next (s.skipIf_of_iff (Bool.not_eq_true' _).to_iff)⟩⟩

end Sys2Proof.Machine
end

section
/-!
The timer tick (60_exceptions.md R206, R207): both timers count down at once, whether the core runs or not.
-/
namespace Sys2Proof.Machine

/-- Settles O51: a tick reads only the two timers and writes only them; subtraction of numbers stops at 0, as each timer
does. -/
theorem timerTickCountsBothDown : Obligations.TimerTickCountsBothDown := by
  intro s
  have htick : applyEvent .timerTick s = .next s.timerTick := rfl
  exact ⟨s.timerTick, htick, countDown_toNat s.dt, countDown_toNat s.st, rfl⟩

end Sys2Proof.Machine
end

section
/-!
Reset (70_reset_and_hazards.md R220): each piece of the machine's state that holds many values, after the `Reset` event.
-/
namespace Sys2Proof.Machine

@[simp] theorem State.resetEvent_readV (s : State) (k : Nibble) : s.resetEvent.readV k = 0#8 :=
  Vector.getElem_replicate k.isLt

@[simp] theorem State.resetEvent_stack_getElem (s : State) (j : Fin 16) : s.resetEvent.stack[j.val] = 0#16 :=
  Vector.getElem_replicate j.isLt

@[simp] theorem State.resetEvent_mem_read (s : State) (a : Nat) : s.resetEvent.mem.read a = 0#8 :=
  Memory.read_absent [] a nofun

@[simp] theorem State.resetEvent_pixel (s : State) (r : Fin 32) (c : Fin 64) : s.resetEvent.fb.pixel r c = false :=
  Frame.pixel_off r c

/-- Settles O50: an edge with `rst` is the `Reset` event alone, and the state after that does not depend on the registers,
the memory or any other piece of the machine's state before it. -/
theorem resetLeavesTheResetState : Obligations.ResetLeavesTheResetState := by
  intro s p rest hpending hrst
  obtain ⟨hreset, -⟩ := edgeInputsActInOrder s p rest hpending
  exact ⟨_, hreset hrst, State.resetEvent_readV _, rfl, rfl, rfl, State.resetEvent_stack_getElem _,
    State.resetEvent_mem_read _, State.resetEvent_pixel _, rfl, rfl, rfl, rfl⟩

end Sys2Proof.Machine
end

section
/-!
The decoder and the encoder (30_encoding.md section 3): each gives back what the other was given, family by family.
-/
namespace Sys2Proof

/-- Settles O1: the word of each operation decodes as its lemma of the form `decodeWord_…_word` says; the word of an unknown
operation is in R72's list, and so unknown to the decoder. -/
theorem decodeOfEncode : Obligations.DecodeOfEncode := by
  intro i hwf
  cases i with
  | clearScreen | returnFromSubroutine => rfl
  | unknown w => exact (unknownExactlyTheListedWords w).mpr hwf
  | _ => simp [encode]

/-! ## A word is the format of its own fields -/

theorem fieldOp_eq_ofNat {w : Word} {k : Nat} (h : w.toNat / 4096 = k) : fieldOp w = BitVec.ofNat 4 k := by
  apply BitVec.eq_of_toNat_eq
  rw [fieldOp_toNat, BitVec.toNat_ofNat]
  omega

theorem formatADDR_of_op {w : Word} {op : Nibble} (hop : fieldOp w = op) : formatADDR op (fieldAddr w) = w :=
  hop ▸ formatADDR_fields w

theorem formatXKK_of_op {w : Word} {op : Nibble} (hop : fieldOp w = op) :
    formatXKK op (fieldX w) (fieldKK w) = w :=
  hop ▸ formatXKK_fields w

theorem formatXKK_of_op_of_sub8 {w : Word} {op : Nibble} {sub8 : Byte} (hop : fieldOp w = op)
    (hsub : fieldKK w = sub8) : formatXKK op (fieldX w) sub8 = w :=
  hsub ▸ formatXKK_of_op hop

theorem formatXYN_of_op {w : Word} {op : Nibble} (hop : fieldOp w = op) :
    formatXYN op (fieldX w) (fieldY w) (fieldN w) = w :=
  hop ▸ formatXYN_fields w

theorem formatXYN_of_op_of_sub4 {w : Word} {op sub4 : Nibble} (hop : fieldOp w = op) (hsub : fieldN w = sub4) :
    formatXYN op (fieldX w) (fieldY w) sub4 = w :=
  hsub ▸ formatXYN_of_op hop

/-! ## The families of the decoder's second level (R65 to R71) -/

theorem encode_decodeFamily0 {w : Word} (hop : fieldOp w = 0x0#4) : encode (decodeFamily0 w) = w := by
  have hw := formatADDR_of_op hop
  unfold decodeFamily0
  split
  case h_3 => rfl
  all_goals rename_i hsel; rw [← hw, hsel]; rfl

theorem encode_decodeFamily5 {w : Word} (hop : fieldOp w = 0x5#4) : encode (decodeFamily5 w) = w := by
  unfold decodeFamily5
  split
  case h_2 => rfl
  all_goals exact formatXYN_of_op_of_sub4 hop ‹_›

theorem encode_decodeFamily8 {w : Word} (hop : fieldOp w = 0x8#4) : encode (decodeFamily8 w) = w := by
  unfold decodeFamily8
  split
  case h_10 => rfl
  all_goals exact formatXYN_of_op_of_sub4 hop ‹_›

theorem encode_decodeFamily9 {w : Word} (hop : fieldOp w = 0x9#4) : encode (decodeFamily9 w) = w := by
  unfold decodeFamily9
  split
  case h_2 => rfl
  all_goals exact formatXYN_of_op_of_sub4 hop ‹_›

theorem encode_decodeFamilyE {w : Word} (hop : fieldOp w = 0xE#4) : encode (decodeFamilyE w) = w := by
  unfold decodeFamilyE
  split
  case h_3 => rfl
  all_goals exact formatXKK_of_op_of_sub8 hop ‹_›

theorem encode_decodeFamilyF {w : Word} (hop : fieldOp w = 0xF#4) : encode (decodeFamilyF w) = w := by
  unfold decodeFamilyF
  split
  case h_10 => rfl
  all_goals exact formatXKK_of_op_of_sub8 hop ‹_›

/-! ## The first level (R64) -/

/-- No bit of a word is lost: the fixed fields are those its selectors were compared with, the others are carried. -/
theorem encode_decodeWord (w : Word) : encode (decodeWord w) = w := by
  have hop {k : Nat} := @fieldOp_eq_ofNat w k
  rcases decodeWord_cases w with ⟨hf, hd⟩ | ⟨hf, hd⟩ | ⟨hf, hd⟩ | ⟨hf, hd⟩ | ⟨hf, hd⟩ | ⟨hf, hd⟩ | ⟨hf, hd⟩ | ⟨hf, hd⟩ |
    ⟨hf, hd⟩ | ⟨hf, hd⟩ | ⟨hf, hd⟩ | ⟨hf, hd⟩ | ⟨hf, hd⟩ | ⟨hf, hd⟩ | ⟨hf, hd⟩ | ⟨hf, hd⟩ <;> rw [hd]
  · exact encode_decodeFamily0 (hop hf)
  · exact formatADDR_of_op (hop hf)
  · exact formatADDR_of_op (hop hf)
  · exact formatXKK_of_op (hop hf)
  · exact formatXKK_of_op (hop hf)
  · exact encode_decodeFamily5 (hop hf)
  · exact formatXKK_of_op (hop hf)
  · exact formatXKK_of_op (hop hf)
  · exact encode_decodeFamily8 (hop hf)
  · exact encode_decodeFamily9 (hop hf)
  · exact formatADDR_of_op (hop hf)
  · exact formatADDR_of_op (hop hf)
  · exact formatXKK_of_op (hop hf)
  · exact formatXYN_of_op (hop hf)
  · exact encode_decodeFamilyE (hop hf)
  · exact encode_decodeFamilyF (hop hf)

/-- An unknown operation carries the word it was decoded from. -/
theorem word_of_decodeWord_unknown {w w' : Word} (h : decodeWord w = .unknown w') : w' = w :=
  (congrArg encode h).symm.trans (encode_decodeWord w)

/-- The decoder answers an unknown operation for the words of R72's list only. -/
theorem isUnknownWord_of_decodeWord_unknown {w w' : Word} (h : decodeWord w = .unknown w') : isUnknownWord w = true := by
  obtain rfl := word_of_decodeWord_unknown h
  exact (unknownExactlyTheListedWords _).mp h

theorem wellFormed_decodeWord (w : Word) : wellFormed (decodeWord w) = true := by
  cases h : decodeWord w with
  | unknown w' => exact word_of_decodeWord_unknown h ▸ isUnknownWord_of_decodeWord_unknown h
  | _ => rfl

/-- Settles O2: each family's encoding puts every field back; the word of an unknown decode is in R72's list. -/
theorem encodeOfDecode : Obligations.EncodeOfDecode := fun w => ⟨wellFormed_decodeWord w, encode_decodeWord w⟩

/-- Settles O4: the vectors are closed words, which the decoder evaluates. -/
theorem decodeOfListedWords : Obligations.DecodeOfListedWords := by
  unfold Obligations.DecodeOfListedWords
  decide

end Sys2Proof
end

section
/-!
What an instruction can do to the state, said once for all operations (40_execution_cycle.md R86). The frames of
10_state.md and 20_memory.md and the invariant are read off it.
-/
namespace Sys2Proof.Machine

/-- The table of causes (60_exceptions.md R191): the operations that halt, each with its condition. -/
inductive HaltCause : Instr → State → HaltReason → Prop
  | stackFull (addr : Addr) {s : State} (h : s.sp.val = 16) : HaltCause (.callSubroutine addr) s .stackOverflow
  | stackEmpty {s : State} (h : s.sp.val = 0) : HaltCause .returnFromSubroutine s .stackUnderflow
  | spriteOutside (x y : Nibble) {n : Nibble} {s : State} (h : 0 < n.toNat ∧ s.i.toNat + n.toNat - 1 > 4095) :
      HaltCause (.draw x y n) s .memOutOfBounds
  | digitsOutside (x : Nibble) {s : State} (h : s.i.toNat + 2 > 4095) : HaltCause (.storeBcd x) s .memOutOfBounds
  | storeOutside {x : Nibble} {s : State} (h : s.i.toNat + x.toNat > 4095) :
      HaltCause (.storeRegisters x) s .memOutOfBounds
  | loadOutside {x : Nibble} {s : State} (h : s.i.toNat + x.toNat > 4095) :
      HaltCause (.loadRegisters x) s .memOutOfBounds

/-- A register file in which only registers the operation may write (10_state.md R11) differ from those of `s`. -/
def RegistersFor (i : Instr) (s : State) (v : Vector Byte 16) : Prop :=
  ∀ k : Nibble, mayWriteV i k = false → v[k.toNat]'k.isLt = s.readV k

/-- The next states of operation `i` in state `s`, by the pieces of state that differ from `s`. -/
inductive InstrEffect (i : Instr) (s : State) : State → Prop
  | halts {c : HaltReason} (hcause : HaltCause i s c) : InstrEffect i s (s.halt c)
  | waits : InstrEffect i s s
  | registers {v : Vector Byte 16} (hv : RegistersFor i s v) : InstrEffect i s { s with v := v, pc := s.pc + 2#16 }
  | random {x : Nibble} {kk : Byte} {v : Vector Byte 16} (hi : i = .randomAnd x kk) (hv : RegistersFor i s v) :
      InstrEffect i s { s with v := v, pc := s.pc + 2#16, draws := s.draws + 1 }
  | index {a : Word} (hi : writesIndex i) : InstrEffect i s { s with i := a, pc := s.pc + 2#16 }
  | delay {x : Nibble} {b : Byte} (hi : i = .setDelayTimer x) : InstrEffect i s { s with dt := b, pc := s.pc + 2#16 }
  | sound {x : Nibble} {b : Byte} (hi : i = .setSoundTimer x) : InstrEffect i s { s with st := b, pc := s.pc + 2#16 }
  | stores {bs : List Byte} (hcount : bs.length = storedCount i) (hinside : s.base + bs.length ≤ 4096) :
      InstrEffect i s { s with mem := s.mem.writeBytes s.base bs, pc := s.pc + 2#16 }
  | transfers {a : Word} (ha : a = s.pc + 2#16 ∨ a = s.pc + 4#16 ∨ a.toNat ≤ 0x10FE) :
      InstrEffect i s { s with pc := a }
  | calls {addr : Addr} (hi : i = .callSubroutine addr) (hroom : s.sp.val < 16) :
      InstrEffect i s { s with stack := s.stack.set s.sp.val s.pc hroom, sp := ⟨s.sp.val + 1, Nat.succ_lt_succ hroom⟩,
                               pc := targetOf addr }
  | returns (hi : i = .returnFromSubroutine) (hentry : 0 < s.sp.val) :
      InstrEffect i s { s with sp := ⟨s.sp.val - 1, by omega⟩, pc := s.stack[s.sp.val - 1] + 2#16 }
  | displays {v : Vector Byte 16} {f : Frame} (hi : writesFrame i) (hv : RegistersFor i s v) :
      InstrEffect i s { s with v := v, fb := f, fbChanged := true, pc := s.pc + 2#16 }
  | reports {w : Word} (hi : i = .unknown w) :
      InstrEffect i s { s with pc := s.pc + 2#16, report := some ⟨s.pc, w⟩ }

/-! ## The shared shapes of the operations -/

section
variable {i : Instr} {s : State}

/-- One register written, and `PC + 2`. -/
theorem InstrEffect.of_writeV {x : Nibble} (b : Byte) (hx : ∀ k, mayWriteV i k = false → k ≠ x) :
    InstrEffect i s (s.writeV x b).advance :=
  .registers fun k hk => s.writeV_readV_other x b k (hx k hk)

/-- One register written, then the flag, and `PC + 2`. -/
theorem InstrEffect.of_writeV_writeFlag {x : Nibble} (b : Byte) (f : Bool)
    (hx : ∀ k, mayWriteV i k = false → k ≠ x ∧ k ≠ 0xF#4) :
    InstrEffect i s ((s.writeV x b).writeFlag f).advance :=
  .registers fun k hk => s.writeV_writeFlag_readV_other x b f k (hx k hk).1 (hx k hk).2

theorem InstrEffect.of_skipIf (c : Bool) : InstrEffect i s (s.skipIf c) := by
  refine .transfers (a := if c then s.pc + 4#16 else s.pc + 2#16) ?_
  cases c
  · exact .inl rfl
  · exact .inr (.inl rfl)

end

/-- A target is at most 0x0FFF, below the bound of `PC` (10_state.md R31). -/
theorem targetOf_toNat_le (addr : Addr) : (targetOf addr).toNat ≤ 0x10FE := by
  rw [targetOf_toNat]
  omega

theorem ne_of_not_dest_or_flag {k x : Nibble} (h : (k == x || k == 0xF#4) = false) : k ≠ x ∧ k ≠ 0xF#4 :=
  (Bool.or_eq_false_iff.mp h).imp ne_of_beq_false ne_of_beq_false

/-! ## The operations with two branches -/

section
variable (s : State)

theorem State.sp_room_or_full : s.sp.val < 16 ∨ s.sp.val = 16 := by omega

theorem callSubroutine_effect (addr : Addr) :
    ∃ t, exec (.callSubroutine addr) s = .next t ∧ InstrEffect (.callSubroutine addr) s t := by
  rcases s.sp_room_or_full with hroom | hfull
  · exact ⟨_, exec_callSubroutine_of_room addr hroom, .calls rfl hroom⟩
  · exact ⟨_, exec_callSubroutine_of_full addr hfull, .halts (.stackFull addr hfull)⟩

theorem returnFromSubroutine_effect :
    ∃ t, exec .returnFromSubroutine s = .next t ∧ InstrEffect .returnFromSubroutine s t := by
  rcases Nat.eq_zero_or_pos s.sp.val with hempty | hentry
  · exact ⟨_, exec_returnFromSubroutine_of_empty hempty, .halts (.stackEmpty hempty)⟩
  · exact ⟨_, exec_returnFromSubroutine_of_entry hentry, .returns rfl hentry⟩

theorem draw_effect (x y n : Nibble) : ∃ t, exec (.draw x y n) s = .next t ∧ InstrEffect (.draw x y n) s t := by
  rcases execDraw_cases s x y n with ⟨houtside, hhalt⟩ | ⟨_, hnext⟩
  · exact ⟨_, hhalt, .halts (.spriteOutside x y houtside)⟩
  · exact ⟨_, hnext, .displays (.inr ⟨x, y, n, rfl⟩) fun k hk => s.afterDraw_readV_other x y n k (ne_of_beq_false hk)⟩

theorem storeBcd_effect (x : Nibble) : ∃ t, exec (.storeBcd x) s = .next t ∧ InstrEffect (.storeBcd x) s t := by
  by_cases h : s.i.toNat + 2 ≤ 4095
  · exact ⟨_, exec_storeBcd_of_inside x h, .stores rfl (Nat.succ_le_succ h)⟩
  · exact ⟨_, exec_storeBcd_of_outside x (by omega), .halts (.digitsOutside x (by omega))⟩

theorem storeRegisters_effect (x : Nibble) :
    ∃ t, exec (.storeRegisters x) s = .next t ∧ InstrEffect (.storeRegisters x) s t := by
  by_cases h : s.i.toNat + x.toNat ≤ 4095
  · have hlength := s.registersUpTo_length x
    exact ⟨_, exec_storeRegisters_of_inside x h, .stores hlength (hlength ▸ Nat.succ_le_succ h)⟩
  · exact ⟨_, exec_storeRegisters_of_outside x (by omega), .halts (.storeOutside (by omega))⟩

theorem loadRegisters_effect (x : Nibble) :
    ∃ t, exec (.loadRegisters x) s = .next t ∧ InstrEffect (.loadRegisters x) s t := by
  by_cases h : s.i.toNat + x.toNat ≤ 4095
  · refine ⟨_, exec_loadRegisters_of_inside x h, .registers fun k hk => ?_⟩
    exact (loadFrom_readBytes_getElem s.mem s.i.toNat s.v x k).trans (if_neg (of_decide_eq_false hk))
  · exact ⟨_, exec_loadRegisters_of_outside x (by omega), .halts (.loadOutside (by omega))⟩

theorem waitForKey_effect (x : Nibble) : ∃ t, exec (.waitForKey x) s = .next t ∧ InstrEffect (.waitForKey x) s t := by
  simp only [exec, execWaitForKey]
  split
  · exact ⟨_, rfl, .waits⟩
  · exact ⟨_, rfl, .of_writeV _ fun _ => ne_of_beq_false⟩

end

/-! ## All operations -/

/-- Every operation answers a next state, by one of the effects. -/
theorem exec_effect (i : Instr) (s : State) : ∃ t, exec i s = .next t ∧ InstrEffect i s t := by
  cases i with
  | callSubroutine addr => exact callSubroutine_effect s addr
  | returnFromSubroutine => exact returnFromSubroutine_effect s
  | draw x y n => exact draw_effect s x y n
  | storeBcd x => exact storeBcd_effect s x
  | storeRegisters x => exact storeRegisters_effect s x
  | loadRegisters x => exact loadRegisters_effect s x
  | waitForKey x => exact waitForKey_effect s x
  | clearScreen => exact ⟨_, rfl, .displays (.inl rfl) fun _ _ => rfl⟩
  | jump addr => exact ⟨_, rfl, .transfers (.inr (.inr (targetOf_toNat_le addr)))⟩
  | jumpWithOffset addr =>
    have htarget := targetOf_add_widen_toNat addr (s.readV 0x0#4)
    exact ⟨_, rfl, .transfers (.inr (.inr (by omega)))⟩
  | skipIfEqual | skipIfNotEqual | skipIfRegistersEqual | skipIfRegistersNotEqual | skipIfKeyPressed
  | skipIfKeyNotPressed => exact ⟨_, rfl, .of_skipIf _⟩
  | setRegister | addRegister | copyRegister | orRegister | andRegister | xorRegister | loadDelayTimer =>
    exact ⟨_, rfl, .of_writeV _ fun _ => ne_of_beq_false⟩
  | addRegisterWithCarry | subRegister | shiftRight | subRegisterReverse | shiftLeft =>
    exact ⟨_, rfl, .of_writeV_writeFlag _ _ fun _ => ne_of_not_dest_or_flag⟩
  | randomAnd x kk => exact ⟨_, rfl, .random rfl fun k hk => s.writeV_readV_other x _ k (ne_of_beq_false hk)⟩
  | setIndexRegister addr => exact ⟨_, rfl, .index (.inl ⟨addr, rfl⟩)⟩
  | addToIndex x => exact ⟨_, rfl, .index (.inr (.inl ⟨x, rfl⟩))⟩
  | setIndexToGlyph x => exact ⟨_, rfl, .index (.inr (.inr ⟨x, rfl⟩))⟩
  | setDelayTimer => exact ⟨_, rfl, .delay rfl⟩
  | setSoundTimer => exact ⟨_, rfl, .sound rfl⟩
  | unknown w => exact ⟨_, rfl, .reports rfl⟩

/-- Everything a completed `exec` can have done. -/
theorem effect_of_exec {i : Instr} {s t : State} (h : exec i s = .next t) : InstrEffect i s t := by
  obtain ⟨u, hu, heffect⟩ := exec_effect i s
  cases hu.symm.trans h
  exact heffect

end Sys2Proof.Machine
end

section
/-!
Frames over all operations (10_state.md, 20_memory.md, 60_exceptions.md): what each effect leaves unchanged.
-/
namespace Sys2Proof.Machine

/-- Settles O31: the three effects that write registers write only those the operation may. -/
theorem registersOutsideTheDestinationKept : Obligations.RegistersOutsideTheDestinationKept := by
  intro i s t h k hk
  cases effect_of_exec h with
  | registers hv | random _ hv | displays _ hv => exact hv k hk
  | _ => rfl

/-- Settles O32: only the store writes memory, the bytes from the base on, as many as the operation stores. -/
theorem memoryOutsideTheStoreKept : Obligations.MemoryOutsideTheStoreKept := by
  intro i s t h a ha
  cases effect_of_exec h with
  | stores hcount _ => exact Memory.read_writeBytes_other _ _ _ a (hcount ▸ ha)
  | _ => rfl

/-- Settles O33: only the effect of a call writes an entry, only those of a call and a return write `SP`. -/
theorem stackChangedByCallAndReturnOnly : Obligations.StackChangedByCallAndReturnOnly := by
  intro i s t h
  cases effect_of_exec h with
  | calls hi _ => exact ⟨fun hcall => absurd hi (hcall _), fun hcall _ => absurd hi (hcall _)⟩
  | returns hi _ => exact ⟨fun _ => rfl, fun _ hreturn => absurd hi hreturn⟩
  | _ => exact ⟨fun _ => rfl, fun _ _ => rfl⟩

/-- Settles O34: only the effect of the display operations writes the framebuffer or the pulse. -/
theorem frameWrittenByDisplayOnly : Obligations.FrameWrittenByDisplayOnly := by
  intro i s t h hi
  cases effect_of_exec h with
  | displays hdisplay _ => exact absurd hdisplay hi
  | _ => exact ⟨rfl, rfl⟩

/-- Settles O35: `I` and each timer have an effect of their own, and no other effect writes them. -/
theorem indexAndTimersWrittenByTheirOwnOnly : Obligations.IndexAndTimersWrittenByTheirOwnOnly := by
  intro i s t h
  cases effect_of_exec h with
  | index hi => exact ⟨fun hindex => absurd hi hindex, fun _ => rfl, fun _ => rfl⟩
  | delay hi => exact ⟨fun _ => rfl, fun hdelay => absurd hi (hdelay _), fun _ => rfl⟩
  | sound hi => exact ⟨fun _ => rfl, fun _ => rfl, fun hsound => absurd hi (hsound _)⟩
  | _ => exact ⟨fun _ => rfl, fun _ => rfl, fun _ => rfl⟩

/-- Settles O36: only the halt writes `running` and `halt_reason`, and its cause is a row of the table. -/
theorem haltsArePreciseAndOnlyForTheirCause : Obligations.HaltsArePreciseAndOnlyForTheirCause := by
  intro i s t h
  cases effect_of_exec h with
  | halts hcause =>
    right
    cases hcause with
    | stackFull addr hfull => exact .inl ⟨rfl, ⟨addr, rfl⟩, hfull⟩
    | stackEmpty hempty => exact .inr (.inl ⟨rfl, rfl, hempty⟩)
    | spriteOutside x y houtside => exact .inr (.inr ⟨rfl, .inl ⟨x, y, _, rfl, houtside⟩⟩)
    | digitsOutside x houtside => exact .inr (.inr ⟨rfl, .inr (.inl ⟨x, rfl, houtside⟩)⟩)
    | storeOutside houtside => exact .inr (.inr ⟨rfl, .inr (.inr ⟨_, .inl rfl, houtside⟩)⟩)
    | loadOutside houtside => exact .inr (.inr ⟨rfl, .inr (.inr ⟨_, .inr rfl, houtside⟩)⟩)
  | _ => exact .inl ⟨rfl, rfl⟩

/-- Settles O37: no effect writes what the host drives; the report and the count of draws have an effect of their own. -/
theorem inputsAndReportKept : Obligations.InputsAndReportKept := by
  intro i s t h
  cases effect_of_exec h with
  | reports hi => exact ⟨rfl, rfl, fun hunknown => absurd hi (hunknown _), fun _ => rfl⟩
  | random hi _ => exact ⟨rfl, rfl, fun _ => rfl, fun hrandom => absurd hi (hrandom _ _)⟩
  | _ => exact ⟨rfl, rfl, fun _ => rfl, fun _ => rfl⟩

end Sys2Proof.Machine
end

section
/-!
What an operation does not read (10_state.md R16, R19, 40_execution_cycle.md R93): the stack, `ST` and the keypad matter to
the operations that name them only, so a change of one of these pieces passes through every other operation.
-/
namespace Sys2Proof.Machine

/-- The state with its stack entries, `ST` and its keypad changed. -/
def State.mapSeldomRead (f : Vector Word 16 → Vector Word 16) (g : Byte → Byte) (k : BitVec 16 → BitVec 16)
    (s : State) : State :=
  { s with stack := f s.stack, st := g s.st, keys := k s.keys }

/-- The two operations that read or write stack entries (10_state.md R16). -/
def usesStack (i : Instr) : Prop := (∃ a, i = .callSubroutine a) ∨ i = .returnFromSubroutine

section
variable {f : Vector Word 16 → Vector Word 16} {g : Byte → Byte} {k : BitVec 16 → BitVec 16} (s : State)

theorem State.mapSeldomRead_base : (s.mapSeldomRead f g k).base = s.base := rfl
theorem State.mapSeldomRead_readV (x : Nibble) : (s.mapSeldomRead f g k).readV x = s.readV x := rfl
theorem State.mapSeldomRead_registersUpTo (x : Nibble) :
    (s.mapSeldomRead f g k).registersUpTo x = s.registersUpTo x := rfl
theorem State.mapSeldomRead_memRead (a n : Nat) : (s.mapSeldomRead f g k).memRead a n = s.memRead a n := rfl
theorem State.mapSeldomRead_spriteRows (n : Nibble) : (s.mapSeldomRead f g k).spriteRows n = s.spriteRows n := rfl
theorem State.mapSeldomRead_lowestKey : (s.mapSeldomRead f g id).lowestKey = s.lowestKey := rfl

theorem State.mapSeldomRead_memWrite (a : Nat) (bs : List Byte) :
    (s.mapSeldomRead f g k).memWrite a bs = (s.memWrite a bs).map (State.mapSeldomRead f g k) := by
  unfold State.memWrite
  split <;> rfl

theorem State.mapSeldomRead_pushPC :
    (s.mapSeldomRead id g k).pushPC = s.pushPC.map (State.mapSeldomRead id g k) := by
  obtain ⟨hfull, hpush⟩ | ⟨hroom, hpush⟩ := s.pushPC_cases <;> rw [hpush]
  · exact dif_neg (Nat.not_lt.mpr hfull.ge)
  · exact dif_pos hroom

theorem State.mapSeldomRead_popEntry : (s.mapSeldomRead id g k).popEntry =
    s.popEntry.map (fun popped => (popped.1, popped.2.mapSeldomRead id g k)) := by
  obtain ⟨hempty, hpop⟩ | ⟨hentry, hpop⟩ := s.popEntry_cases <;> rw [hpop]
  · exact dif_neg (Nat.not_lt.mpr hempty.le)
  · exact dif_pos hentry

/-- An operation commutes with a change of the pieces of state it does not name. -/
theorem exec_mapSeldomRead (i : Instr) (hstack : usesStack i → f = id) (hsound : ∀ x, i = .setSoundTimer x → g = id)
    (hkeys : readsKeys i → k = id) :
    exec i (s.mapSeldomRead f g k) = mapNext (State.mapSeldomRead f g k) (exec i s) := by
  cases i with
  | callSubroutine addr =>
    obtain rfl := hstack (.inl ⟨addr, rfl⟩)
    simp only [exec, execCallSubroutine, State.mapSeldomRead_pushPC]
    cases s.pushPC <;> rfl
  | returnFromSubroutine =>
    obtain rfl := hstack (.inr rfl)
    simp only [exec, execReturnFromSubroutine, State.mapSeldomRead_popEntry]
    cases s.popEntry <;> rfl
  | storeBcd x =>
    simp only [exec, execStoreBcd, State.mapSeldomRead_memWrite, State.mapSeldomRead_base, State.mapSeldomRead_readV]
    cases s.memWrite s.base (bcdDigits (s.readV x)) <;> rfl
  | storeRegisters x =>
    simp only [exec, execStoreRegisters, State.mapSeldomRead_memWrite, State.mapSeldomRead_base,
      State.mapSeldomRead_registersUpTo]
    cases s.memWrite s.base (s.registersUpTo x) <;> rfl
  | loadRegisters x =>
    simp only [exec, execLoadRegisters, State.mapSeldomRead_memRead, State.mapSeldomRead_base]
    cases s.memRead s.base (x.toNat + 1) <;> rfl
  | draw x y n =>
    simp only [exec, execDraw, State.mapSeldomRead_spriteRows]
    cases s.spriteRows n <;> rfl
  | waitForKey x =>
    obtain rfl := hkeys (.inr (.inr ⟨x, rfl⟩))
    simp only [exec, execWaitForKey, State.mapSeldomRead_lowestKey]
    cases s.lowestKey <;> rfl
  | skipIfKeyPressed x => obtain rfl := hkeys (.inl ⟨x, rfl⟩); rfl
  | skipIfKeyNotPressed x => obtain rfl := hkeys (.inr (.inl ⟨x, rfl⟩)); rfl
  | setSoundTimer x => obtain rfl := hsound x rfl; rfl
  | _ => rfl

end

/-- Settles O38: another keypad is a change that passes through every operation but the three. -/
theorem keypadMattersToThreeOnly : Obligations.KeypadMattersToThreeOnly := fun i s k hi =>
  exec_mapSeldomRead (f := id) (g := id) (k := fun _ => k) s i (fun _ => rfl) (fun _ _ => rfl) (absurd · hi)

/-- Settles O39: another value of `ST` is a change that passes through every operation but the one that writes it. -/
theorem soundTimerNeverRead : Obligations.SoundTimerNeverRead := fun i s b hi =>
  exec_mapSeldomRead (f := id) (g := fun _ => b) (k := id) s i (fun _ => rfl) (fun x hx => absurd hx (hi x))
    (fun _ => rfl)

/-! ## Stale stack entries (10_state.md R16) -/

/-- Two states that agree on everything but stack entries at or above `SP`. -/
def AgreeBelowSP (s s' : State) : Prop :=
  s' = { s with stack := s'.stack } ∧ ∀ j : Fin 16, j.val < s.sp.val → s'.stack[j.val] = s.stack[j.val]

theorem AgreeBelowSP.with_stack {s : State} {stack : Vector Word 16}
    (h : ∀ j : Fin 16, j.val < s.sp.val → stack[j.val] = s.stack[j.val]) :
    AgreeBelowSP s { s with stack := stack } :=
  ⟨rfl, h⟩

section
variable {s : State} {stack : Vector Word 16} (hbelow : ∀ j : Fin 16, j.val < s.sp.val → stack[j.val] = s.stack[j.val])
include hbelow

/-- A call writes the same entry to both stacks, at the old `SP`. -/
theorem callSubroutine_agreeBelowSP {addr : Addr} {t t' : State} (h : exec (.callSubroutine addr) s = .next t)
    (h' : exec (.callSubroutine addr) { s with stack := stack } = .next t') : AgreeBelowSP t t' := by
  rcases s.sp_room_or_full with hroom | hfull
  · cases (exec_callSubroutine_of_room addr hroom).symm.trans h
    cases (exec_callSubroutine_of_room addr (s := { s with stack := stack }) hroom).symm.trans h'
    refine ⟨rfl, fun j hj => ?_⟩
    have hj' : j.val < s.sp.val + 1 := hj
    by_cases htop : s.sp.val = j.val
    · simp [htop]
    · simpa [Vector.getElem_set_ne, htop] using hbelow j (by omega)
  · cases (exec_callSubroutine_of_full addr hfull).symm.trans h
    cases (exec_callSubroutine_of_full addr (s := { s with stack := stack }) hfull).symm.trans h'
    exact .with_stack hbelow

/-- A return reads the newest valid entry, which both stacks hold. -/
theorem returnFromSubroutine_agreeBelowSP {t t' : State} (h : exec .returnFromSubroutine s = .next t)
    (h' : exec .returnFromSubroutine { s with stack := stack } = .next t') : AgreeBelowSP t t' := by
  rcases Nat.eq_zero_or_pos s.sp.val with hempty | hentry
  · cases (exec_returnFromSubroutine_of_empty hempty).symm.trans h
    cases (exec_returnFromSubroutine_of_empty (s := { s with stack := stack }) hempty).symm.trans h'
    exact .with_stack hbelow
  · cases (exec_returnFromSubroutine_of_entry hentry).symm.trans h
    cases (exec_returnFromSubroutine_of_entry (s := { s with stack := stack }) hentry).symm.trans h'
    have hnewest := hbelow ⟨s.sp.val - 1, by omega⟩ (by show s.sp.val - 1 < s.sp.val; omega)
    refine ⟨?_, fun j hj => hbelow j ?_⟩
    · simpa using hnewest
    · have hj' : j.val < s.sp.val - 1 := hj
      omega

/-- Every other operation keeps the entries and `SP`, and does the same whatever the entries are. -/
theorem agreeBelowSP_of_not_usesStack {i : Instr} (hi : ¬ usesStack i) {t t' : State} (h : exec i s = .next t)
    (h' : exec i { s with stack := stack } = .next t') : AgreeBelowSP t t' := by
  have hcall (a : Addr) : i ≠ .callSubroutine a := fun e => hi (.inl ⟨a, e⟩)
  obtain ⟨hstack, hsp⟩ := stackChangedByCallAndReturnOnly i s t h
  have hcommutes := exec_mapSeldomRead (f := fun _ => stack) (g := id) (k := id) s i (absurd · hi) (fun _ _ => rfl)
    (fun _ => rfl)
  rw [h] at hcommutes
  cases hcommutes.symm.trans h'
  refine .with_stack ?_
  rw [hstack hcall, hsp hcall fun e => hi (.inr e)]
  exact hbelow

end

/-- Settles O40: only a call and a return use the stack, the one at `SP`, the other below it. -/
theorem staleStackEntriesNeverRead : Obligations.StaleStackEntriesNeverRead := by
  intro i s s' t t' hbelow hs' h h'
  rw [hs'] at h'
  by_cases hi : usesStack i
  · rcases hi with ⟨addr, rfl⟩ | rfl
    · exact callSubroutine_agreeBelowSP hbelow h h'
    · exact returnFromSubroutine_agreeBelowSP hbelow h h'
  · exact agreeBelowSP_of_not_usesStack hbelow hi h h'

end Sys2Proof.Machine
end

section
/-!
Plain storage (20_memory.md section 2) and the fetch of bytes just stored (section 3).
-/
namespace Sys2Proof.Machine

/-- Settles O41: one byte is written, in its place by rising address. -/
theorem memoryWriteThenRead : Obligations.MemoryWriteThenRead := fun m a b v =>
  ⟨Memory.read_write_same m a v, Memory.read_write_other m a b v, Memory.write_wf m a v⟩

/-- Settles O42: each primitive tests the last address of the range before it transfers anything. -/
theorem transfersAreAllOrNothing : Obligations.TransfersAreAllOrNothing := by
  intro s addr n bs _ _
  refine ⟨s.memRead_outside addr n, fun hread => ?_, s.memWrite_outside addr bs, fun hwrite => ?_⟩
  · exact ⟨_, s.memRead_inside addr n hread, Memory.readBytes_length _ _ _, Memory.readBytes_getElem _ _ _⟩
  · exact ⟨_, s.memWrite_inside addr bs hwrite, Memory.read_writeBytes_at _ _ _, Memory.read_writeBytes_other _ _ _, rfl⟩

theorem nibble_add_one_toNat {k : Nibble} (h : k.toNat + 1 ≤ 15) : (k + 1#4).toNat = k.toNat + 1 := by
  simp only [BitVec.toNat_add, BitVec.toNat_ofNat]
  omega

/-- Settles O43: both bytes fetched lie in the stored range, where memory holds the registers. -/
theorem storedBytesAreFetched : Obligations.StoredBytesAreFetched := by
  intro x k s t h hinside hk hpc
  obtain ⟨-, hstore, -⟩ := storeRegistersWritesTheRange x s
  obtain ⟨t', ht', hbytes, -⟩ := hstore hinside
  cases ht'.symm.trans h
  have hnext : (k + 1#4).toNat = k.toNat + 1 := nibble_add_one_toNat (by omega)
  have hhigh : t.mem.read t.pc.toNat = s.readV k := hpc ▸ hbytes k (by omega)
  have hlow : t.mem.read (t.pc.toNat + 1) = s.readV (k + 1#4) := by
    rw [hpc, Nat.add_assoc, ← hnext]
    exact hbytes _ (by omega)
  refine ⟨_, State.fetch_of_inside (by omega), ?_⟩
  rw [wordOfBytes_toNat, hhigh, hlow]

end Sys2Proof.Machine
end

section
/-!
The cycle (40_execution_cycle.md R80 to R89): the instruction step and the events while running and while halted.
-/
namespace Sys2Proof.Machine

theorem instrStep_of_halted {s : State} (h : s.running = false) : instrStep s = .next s := if_pos h

/-- The word that two bytes at `PC` make is the one whose decode `decode` answers. -/
theorem decodeWord_of_decode {hi lo : Byte} {i : Instr} (h : decode [hi, lo] = .ok (i, [])) :
    decodeWord (wordOfBytes hi lo) = i := by
  cases h
  rfl

/-- An edge with no input listed steps in the state without the one-period outputs. -/
theorem step_of_no_pending {s : State} (h : s.pending = []) :
    step s = instrStep { s with fbChanged := false, report := none } := by
  have hinputs : s.nextInputs = { step := true, keys := s.keys } := by rw [State.nextInputs, h]
  have hbegin : s.beginEdge = { s with fbChanged := false, report := none } := by rw [State.beginEdge, h, List.tail_nil, ← h]
  rw [step_of_step_alone s _ hinputs, hbegin]

theorem step_of_listed_step_alone {s : State} {k : BitVec 16} {rest : List Inputs}
    (h : s.pending = { step := true, keys := k } :: rest) :
    step s = instrStep { s with pending := rest, keys := k, fbChanged := false, report := none } := by
  have hinputs : s.nextInputs = { step := true, keys := k } := by rw [State.nextInputs, h]
  rw [step_of_step_alone s k hinputs, State.beginEdge, h, List.tail_cons]

/-- Settles O44: the fetch and the run bit do not depend on what the start of an edge changes. -/
theorem stepRunsTheDecodedInstruction : Obligations.StepRunsTheDecodedInstruction := by
  intro s i hrunning hpc hdecode
  obtain rfl := decodeWord_of_decode hdecode
  have hrun {u : State} (hu : u.running = true) (hfetch : u.fetch = s.fetch) :=
    instrStep_of_fetch hu (hfetch.trans (State.fetch_of_inside hpc))
  refine ⟨wellFormed_decodeWord _, hrun hrunning rfl, fun hpending => ?_, fun k rest hpending => ?_⟩
  · exact (step_of_no_pending hpending).trans (hrun hrunning rfl)
  · exact (step_of_listed_step_alone hpending).trans (hrun hrunning rfl)

/-- Settles O46: the step tests the run bit first; the tick does not test it, and the loader port asks for it to be 0. -/
theorem haltedCoreDoesNotStep : Obligations.HaltedCoreDoesNotStep := fun s a b hhalted =>
  ⟨instrStep_of_halted hhalted, rfl, congrArg Host.Outcome.next (s.load_of_halted a b hhalted)⟩

/-- Settles O47: an edge is a sequence of events, each of which answers a next state. -/
theorem everyEdgeAnswersANextState : Obligations.EveryEdgeAnswersANextState := by
  intro s
  obtain ⟨t, ht, -⟩ := runEvents_invariant (P := fun _ => True) (edgeEvents s.nextInputs) (fun _ _ _ _ _ _ => trivial)
    s.beginEdge trivial
  exact ⟨t, ht⟩

theorem State.start_of_running {s : State} (h : s.running = true) : s.start = s := by
  rcases s.start_cases with ⟨hhalted, -, -⟩ | ⟨-, hstart⟩
  · simp [h] at hhalted
  · exact hstart

theorem State.start_of_fatal {s : State} (h : s.haltReason.fatal = true) : s.start = s := by
  rcases s.start_cases with ⟨-, hnot, -⟩ | ⟨-, hstart⟩
  · simp [h] at hnot
  · exact hstart

theorem State.start_of_halted {s : State} (h : s.running = false) (hreason : s.haltReason.fatal = false) :
    s.start = { s with running := true, haltReason := .none } :=
  if_pos ⟨h, hreason⟩

theorem State.stop_of_running {s : State} (h : s.running = true) : s.stop = s.halt .stop := if_pos h

theorem State.stop_of_halted {s : State} (h : s.running = false) : s.stop = s := if_neg (by simp [h])

/-- Settles O53: `NONE` and `STOP` are the reasons that are not fatal. -/
theorem startAndStopEvents : Obligations.StartAndStopEvents := by
  intro s
  refine ⟨fun ⟨hhalted, hreason⟩ => ?_, fun hkept => ?_, fun hrunning => ?_, fun hhalted => ?_⟩
  · have hfatal : s.haltReason.fatal = false := by rcases hreason with h | h <;> rw [h] <;> rfl
    exact congrArg Host.Outcome.next (State.start_of_halted hhalted hfatal)
  · exact congrArg Host.Outcome.next (hkept.elim State.start_of_running State.start_of_fatal)
  · exact congrArg Host.Outcome.next (State.stop_of_running hrunning)
  · exact congrArg Host.Outcome.next (State.stop_of_halted hhalted)

/-- The state in which the events of a listed edge without `rst` act, after its inputs are taken (R89). -/
def State.takeInputs (s : State) (p : Inputs) (rest : List Inputs) : State :=
  { s with pending := rest, keys := p.keys, fbChanged := false, report := none }

/-- An edge of a running core without `rst`: neither the load nor the start acts, so the stop comes first (R89). -/
theorem step_of_running {s : State} {p : Inputs} {rest : List Inputs} (hrunning : s.running = true)
    (hpending : s.pending = p :: rest) (hrst : p.rst = false) {u : State}
    (hu : u = if p.stopReq = true then (s.takeInputs p rest).stop else s.takeInputs p rest) :
    step s = mapNext (fun t => if p.timerTick = true then t.timerTick else t)
      (if p.step = true then instrStep u else .next u) := by
  obtain ⟨-, hedge⟩ := edgeInputsActInOrder s p rest hpending
  have htaken : (s.takeInputs p rest).running = true := hrunning
  refine hedge hrst (s.takeInputs p rest) (s.takeInputs p rest) (s.takeInputs p rest) u rfl ?_ ?_ hu
  · rw [State.load_of_running _ _ _ htaken, ite_self]
  · rw [State.start_of_running htaken, ite_self]

/-- Settles O48: the stop halts the core, and a halted core's step changes nothing. -/
theorem stopWinsOverStep : Obligations.StopWinsOverStep := by
  intro s p rest hrunning hpending hrst hstop
  have hhalt : (s.takeInputs p rest).stop = (s.takeInputs p rest).halt .stop := State.stop_of_running hrunning
  rw [step_of_running hrunning hpending hrst rfl, if_pos hstop, hhalt, instrStep_of_halted rfl, ite_self]
  cases p.timerTick <;> rfl

/-- Settles O56: the call pushes its own address, which the return pops and passes by 2. -/
theorem callThenReturnComesBack : Obligations.CallThenReturnComesBack := by
  intro addr s hroom
  refine ⟨_, _, exec_callSubroutine_of_room addr hroom, exec_returnFromSubroutine_of_entry (Nat.succ_pos _), ?_, rfl, rfl,
    rfl, rfl⟩
  simp

end Sys2Proof.Machine
end

section
/-!
Fatal halts (60_exceptions.md R198) and the boot sequence (70_reset_and_hazards.md R224): runs of events.
-/
namespace Sys2Proof.Machine

/-- What a fatally halted core keeps of `s` until a reset: everything but memory, the timers and the keypad. -/
def StuckAs (s t : State) : Prop := t = { s with mem := t.mem, dt := t.dt, st := t.st, keys := t.keys }

theorem applyEvent_keeps_stuckAs {s : State} (hhalted : s.running = false) (hfatal : s.haltReason.fatal = true)
    {e : Event} (he : e ≠ .reset) {t u : State} (ht : StuckAs s t) (h : applyEvent e t = .next u) : StuckAs s u := by
  have hhalted' : t.running = false := (congrArg State.running ht).trans hhalted
  have hfatal' : t.haltReason.fatal = true := (congrArg (fun u => u.haltReason.fatal) ht).trans hfatal
  cases e with
  | reset => exact absurd rfl he
  | load a b =>
    cases h
    rw [t.load_of_halted a b hhalted', ht]
    rfl
  | start => cases h; rwa [State.start_of_fatal hfatal']
  | stop => cases h; rwa [State.stop_of_halted hhalted']
  | step => cases (instrStep_of_halted hhalted').symm.trans h; exact ht
  | timerTick => cases h; rw [ht]; rfl
  | keys k => cases h; rw [ht]; rfl

/-- Settles O54: the start asks for a reason that is not fatal, the stop and the step for a running core. -/
theorem fatalHaltLeftOnlyByReset : Obligations.FatalHaltLeftOnlyByReset := fun es s hreset hhalted hfatal =>
  runEvents_invariant (P := StuckAs s) es
    (fun _ he _ _ => applyEvent_keeps_stuckAs hhalted hfatal fun h => hreset (h ▸ he)) s rfl

/-- In a halted core the loads of a ROM that fits write its bytes from the first address on. -/
theorem runEvents_romLoads (rom : List Byte) : ∀ (a : Nat) (s : State), s.running = false → a + rom.length ≤ 4096 →
    runEvents (romLoads a rom) s = .next { s with mem := s.mem.writeBytes a rom } := by
  induction rom with
  | nil => intro a s _ _; rfl
  | cons b rom ih =>
    intro a s hhalted hfits
    rw [List.length_cons] at hfits
    have haddr : (BitVec.ofNat 12 a).toNat = a := Nat.mod_eq_of_lt (by omega)
    have hload := s.load_of_halted (BitVec.ofNat 12 a) b hhalted
    rw [haddr] at hload
    have hevent : applyEvent (.load (BitVec.ofNat 12 a) b) s = .next { s with mem := s.mem.write a b } :=
      congrArg Host.Outcome.next hload
    rw [romLoads, runEvents_cons_next _ hevent]
    exact ih (a + 1) _ hhalted (by omega)

/-- The boot sequence without a font: the reset state with the ROM's bytes written, running. -/
theorem runEvents_bootEvents {rom : List Byte} (hfits : rom.length ≤ 3584) (s : State) :
    runEvents (bootEvents rom []) s =
      .next { s.resetEvent with mem := s.resetEvent.mem.writeBytes 0x200 rom, running := true } := by
  have hloads := runEvents_romLoads rom 0x200 s.resetEvent rfl (by omega)
  rw [bootEvents, runEvents_cons_next _ rfl, romLoads, List.append_nil, runEvents_append_next _ _ hloads]
  rfl

/-- Settles O57: after the reset memory holds zeros; the loads write the ROM's bytes and nothing else. -/
theorem bootLeavesTheLaunchState : Obligations.BootLeavesTheLaunchState := by
  intro rom s hfits
  refine ⟨_, runEvents_bootEvents hfits s, Memory.read_writeBytes_at rom _ _, fun a ha => ?_, rfl⟩
  exact (Memory.read_writeBytes_other rom _ _ a ha).trans (s.resetEvent_mem_read a)

end Sys2Proof.Machine
end

section
/-!
The one-period outputs (10_state.md R28, R29, 40_execution_cycle.md R90): what the instruction of an edge raises.
-/
namespace Sys2Proof.Machine

/-- An operation raises `fb_changed` exactly when it is a display operation and does not halt. -/
theorem fbChanged_iff_of_exec {i : Instr} {s t : State} (hrunning : s.running = true) (hbefore : s.fbChanged = false)
    (h : exec i s = .next t) : t.fbChanged = true ↔ writesFrame i ∧ t.running = true := by
  constructor
  · intro hraised
    cases effect_of_exec h with
    | displays hi _ => exact ⟨hi, hrunning⟩
    | _ => exact absurd hraised (by simp [hbefore])
  · rintro ⟨rfl | ⟨x, y, n, rfl⟩, hstill⟩
    · cases h
      rfl
    · rcases execDraw_cases s x y n with ⟨-, hhalt⟩ | ⟨-, hnext⟩
      · cases hhalt.symm.trans h
        simp at hstill
      · cases hnext.symm.trans h
        rfl

theorem report_of_exec_of_unknown_word {w : Word} {s t : State} (hunknown : isUnknownWord w = true)
    (h : exec (decodeWord w) s = .next t) : t.report = some ⟨s.pc, w⟩ := by
  rw [(unknownExactlyTheListedWords w).mpr hunknown] at h
  cases h
  rfl

/-- The operation of a word makes a report exactly when the word is in R72's list. -/
theorem report_isSome_iff_of_exec {w : Word} {s t : State} (hbefore : s.report = none)
    (h : exec (decodeWord w) s = .next t) : t.report.isSome = true ↔ isUnknownWord w = true := by
  constructor
  · intro hreport
    cases effect_of_exec h with
    | reports hi => exact isUnknownWord_of_decodeWord_unknown hi
    | _ => exact absurd hreport (by simp [hbefore])
  · intro hunknown
    rw [report_of_exec_of_unknown_word hunknown h]
    rfl

/-- The pulses of an instruction step that fetches `w`, where none stands before it. -/
theorem pulses_of_instrStep {u t : State} {w : Word} (h : instrStep u = .next t) (hrunning : u.running = true)
    (hfetch : u.fetch = some w) (hfb : u.fbChanged = false) (hreport : u.report = none) :
    (t.fbChanged = true ↔ writesFrame (decodeWord w) ∧ t.running = true) ∧
    (t.unkValid = true ↔ isUnknownWord w = true) ∧
    (isUnknownWord w = true → t.unkWord = some w ∧ t.unkPC = some u.pc) := by
  rw [instrStep_of_fetch hrunning hfetch] at h
  refine ⟨fbChanged_iff_of_exec hrunning hfb h, report_isSome_iff_of_exec hreport h, fun hunknown => ?_⟩
  have hmade := report_of_exec_of_unknown_word hunknown h
  exact ⟨congrArg (Option.map Report.word) hmade, congrArg (Option.map Report.pc) hmade⟩

/-- Settles O55: the edge is one instruction step from the state in which the outputs of the edge before are over. -/
theorem pulsesTellTheLatestEdge : Obligations.PulsesTellTheLatestEdge := by
  intro s t w hrunning hpending hfetch h
  rw [step_of_no_pending hpending] at h
  have hpulses := pulses_of_instrStep h hrunning hfetch rfl rfl
  exact hpulses

/-- Settles O60: in a running core the step is all of the edge that can raise an output; the tick after it keeps them. -/
theorem pulsesTellAListedStep : Obligations.PulsesTellAListedStep := by
  intro s t w p rest hrunning hpending hrst hstop hstep hfetch h
  rw [step_of_running hrunning hpending hrst rfl, hstop, hstep] at h
  obtain ⟨u, hu⟩ : ∃ u, instrStep (s.takeInputs p rest) = .next u := applyEvent_answers_next .step _
  have hpulses := pulses_of_instrStep hu hrunning hfetch rfl rfl
  have ht : t = if p.timerTick = true then u.timerTick else u := by
    simp only [Bool.false_eq_true, if_false, if_true, hu, mapNext, Host.Outcome.next.injEq] at h
    exact h.symm
  cases htick : p.timerTick <;> rw [ht, htick] <;> exact hpulses

end Sys2Proof.Machine
end

section
/-!
Two draws of one sprite (44_display.md R162): the second finds the coordinates and the rows of the first, since neither is
written by it, and turns the same pixels back.
-/
namespace Sys2Proof.Machine

/-- What a `Draw` writes is no part of the sprite of the next one, if the flag is none of its coordinates. -/
theorem State.spriteCovers_afterDraw (s : State) {x y : Nibble} (n : Nibble) (hx : x ≠ 0xF#4) (hy : y ≠ 0xF#4)
    (r : Fin 32) (c : Fin 64) : spriteCovers (s.afterDraw x y n) x y n r c ↔ spriteCovers s x y n r c := by
  rw [spriteCovers, s.afterDraw_readV_other x y n x hx, s.afterDraw_readV_other x y n y hy]
  exact Iff.rfl

/-- Settles O27: a covered pixel is turned over twice, every other pixel never; a covered pixel that was off is on between
the two draws, so the second finds a collision. -/
theorem drawTwiceRestoresTheFrame : Obligations.DrawTwiceRestoresTheFrame := by
  intro x y n s hx hy hinside
  have hcovers := s.spriteCovers_afterDraw n hx hy
  refine ⟨s.afterDraw x y n, (s.afterDraw x y n).afterDraw x y n, exec_draw_of_inside x y hinside,
    exec_draw_of_inside x y hinside, Frame.ext_pixel _ _ fun r c => ?_, ?_⟩
  · by_cases hcovered : spriteCovers s x y n r c
    · rw [State.afterDraw_pixel_of_covered ((hcovers r c).mpr hcovered), State.afterDraw_pixel_of_covered hcovered,
        Bool.not_not]
    · rw [State.afterDraw_pixel_of_not_covered (mt (hcovers r c).mp hcovered),
        State.afterDraw_pixel_of_not_covered hcovered]
  · rintro ⟨r, c, hcovered, hoff⟩
    refine State.afterDraw_flag_of_collision ⟨r, c, (hcovers r c).mpr hcovered, ?_⟩
    rw [State.afterDraw_pixel_of_covered hcovered, hoff, Bool.not_false]

end Sys2Proof.Machine
end

section
/-!
The invariant of every reachable state (10_state.md R31): it holds after reset, and every event, hence every edge, keeps it.
-/
namespace Sys2Proof.Machine

/-- Settles O58: memory is empty, the entries are 0, `PC` is 0x0200, and no reason stands. -/
theorem resetMeetsTheInvariant : Obligations.ResetMeetsTheInvariant :=
  ⟨State.reset_mem_wf, by decide, by decide, nofun, nofun, nofun, nofun⟩

theorem State.haltIdentified_of_none {s : State} (h : s.haltReason = .none) : s.haltIdentified := by
  simp [State.haltIdentified, h]

/-- The invariant of a state that goes on as `s` did: only memory, `PC` and the stack are left to check. -/
theorem State.inv_of_running {s t : State} (hs : s.Inv) (hrunning : s.running = true) (hmem : t.mem.wf)
    (hpc : t.pc.toNat ≤ 0x10FE) (hstack : ∀ j : Fin 16, t.stack[j.val].toNat ≤ 0x0FFE)
    (hreason : t.haltReason = s.haltReason) : t.Inv := by
  obtain ⟨-, -, -, hnone, -⟩ := hs
  have ht : t.haltReason = .none := hreason.trans (hnone hrunning)
  exact ⟨hmem, hpc, hstack, fun _ => ht, State.haltIdentified_of_none ht⟩

/-- The reason of a halt by an operation is identified as R191 says. -/
theorem haltIdentified_of_cause {i : Instr} {s : State} {c : HaltReason} (h : HaltCause i s c) :
    (s.halt c).haltIdentified := by
  cases h with
  | stackFull _ hfull => exact ⟨nofun, fun _ => hfull, nofun⟩
  | stackEmpty hempty => exact ⟨nofun, nofun, fun _ => hempty⟩
  | spriteOutside | digitsOutside | storeOutside | loadOutside => exact ⟨nofun, nofun, nofun⟩

theorem State.halt_inv {s : State} {c : HaltReason} (hs : s.Inv) (hc : (s.halt c).haltIdentified) : (s.halt c).Inv := by
  obtain ⟨hmem, hpc, hstack, -, -⟩ := hs
  exact ⟨hmem, hpc, hstack, nofun, hc⟩

/-- An increment of a `PC` from which the fetch succeeded stays below the bound of R31. -/
theorem add_toNat_le_of_fetched {pc : Word} (h : pc.toNat ≤ 0x0FFE) {d : Word} (hd : d.toNat ≤ 4) :
    (pc + d).toNat ≤ 0x10FE := by
  rw [BitVec.toNat_add]
  omega

/-- An operation keeps the invariant, from a `PC` at which the fetch succeeded (R84). -/
theorem exec_keeps_inv {i : Instr} {s t : State} (hs : s.Inv) (hrunning : s.running = true)
    (hfetched : s.pc.toNat ≤ 0x0FFE) (h : exec i s = .next t) : t.Inv := by
  have ⟨hmem, _, hstack, _⟩ := hs
  have hnext : (s.pc + 2#16).toNat ≤ 0x10FE := add_toNat_le_of_fetched hfetched (by decide)
  cases effect_of_exec h with
  | halts hcause => exact State.halt_inv hs (haltIdentified_of_cause hcause)
  | waits => exact hs
  | stores _ hinside =>
    exact State.inv_of_running hs hrunning (Memory.writeBytes_wf _ _ _ hmem hinside) hnext hstack rfl
  | transfers ha =>
    refine State.inv_of_running hs hrunning hmem ?_ hstack rfl
    rcases ha with rfl | rfl | hbound
    · exact hnext
    · exact add_toNat_le_of_fetched hfetched (by decide)
    · exact hbound
  | calls _ hroom =>
    refine State.inv_of_running hs hrunning hmem (targetOf_toNat_le _) (fun j => ?_) rfl
    show (s.stack.set s.sp.val s.pc hroom)[j.val].toNat ≤ 0x0FFE
    rw [Vector.getElem_set]
    split
    · exact hfetched
    · exact hstack j
  | returns _ hentry =>
    have hentry : s.stack[s.sp.val - 1].toNat ≤ 0x0FFE := hstack ⟨s.sp.val - 1, by omega⟩
    exact State.inv_of_running hs hrunning hmem (add_toNat_le_of_fetched hentry (by decide)) hstack rfl
  | _ => exact State.inv_of_running hs hrunning hmem hnext hstack rfl

theorem instrStep_keeps_inv {s t : State} (hs : s.Inv) (h : instrStep s = .next t) : t.Inv := by
  rcases instrStep_cases s with ⟨-, hstep⟩ | ⟨-, hpc, hstep⟩ | ⟨hrunning, hpc, hstep⟩
  · cases hstep.symm.trans h
    exact hs
  · cases hstep.symm.trans h
    exact State.halt_inv hs ⟨fun _ => Nat.le_of_lt_succ hpc, nofun, nofun⟩
  · exact exec_keeps_inv hs hrunning (Nat.le_of_succ_le_succ hpc) (hstep.symm.trans h)

theorem State.start_keeps_inv {s : State} (hs : s.Inv) : s.start.Inv := by
  rcases s.start_cases with ⟨-, -, hstart⟩ | ⟨-, hstart⟩ <;> rw [hstart]
  · obtain ⟨hmem, hpc, hstack, -, -⟩ := hs
    exact ⟨hmem, hpc, hstack, fun _ => rfl, State.haltIdentified_of_none rfl⟩
  · exact hs

theorem State.stop_keeps_inv {s : State} (hs : s.Inv) : s.stop.Inv := by
  rcases s.stop_cases with ⟨-, hstop⟩ | ⟨-, hstop⟩ <;> rw [hstop]
  · exact State.halt_inv hs ⟨nofun, nofun, nofun⟩
  · exact hs

theorem State.load_keeps_inv {s : State} (a : Addr) (b : Byte) (hs : s.Inv) : (s.load a b).Inv := by
  have ⟨hmem, hrest⟩ := hs
  rcases s.load_cases a b with ⟨-, hload⟩ | ⟨-, hload⟩ <;> rw [hload]
  · exact hs
  · exact ⟨Memory.write_wf s.mem a.toNat b hmem a.isLt, hrest⟩

/-- Every event keeps the invariant; the tick and the keypad write none of the pieces it speaks of. -/
theorem applyEvent_keeps_inv {e : Event} {s t : State} (hs : s.Inv) (h : applyEvent e s = .next t) : t.Inv := by
  cases e with
  | reset => cases h; exact resetMeetsTheInvariant
  | load a b => cases h; exact State.load_keeps_inv a b hs
  | start => cases h; exact State.start_keeps_inv hs
  | stop => cases h; exact State.stop_keeps_inv hs
  | step => exact instrStep_keeps_inv hs h
  | timerTick | keys => cases h; exact hs

/-- Settles O59: an edge takes its inputs, which touches no piece the invariant speaks of, and then is a run of events. -/
theorem everyEdgeKeepsTheInvariant : Obligations.EveryEdgeKeepsTheInvariant := by
  intro s t hs h
  obtain ⟨u, hu, hinv⟩ := runEvents_invariant (P := State.Inv) (edgeEvents s.nextInputs)
    (fun _ _ _ _ => applyEvent_keeps_inv) s.beginEdge hs
  cases hu.symm.trans h
  exact hinv

end Sys2Proof.Machine
end
